-- ==== Sys2Proof/Word.lean ====
section
/-! DEFINITION. The two word types of the machine: bytes (registers, memory cells, timers) and 16-bit words (instruction words, PC, I, return addresses). 00_scope.md R7: all values are unsigned. -/

namespace Sys2Proof

/-- One byte: a memory cell, a `V` or `RPL` register, a timer (10_state.md R11, R12, R17, R18). -/
abbrev Byte := BitVec 8

/-- One 16-bit word: an instruction word, `PC`, `I`, a return address (10_state.md R14 to R16). -/
abbrev Word := BitVec 16

end Sys2Proof
end

