-- ==== Sys2Proof/Config.lean ====
section
/-! DEFINITION. The configuration record of 00_scope.md R5 and the free values: what the spec leaves open (FX1E_VF_ELSE, IPT, FONT_HI) and what the environment answers (key levels, STOP, random bytes), as constants without a body. -/

namespace Sys2Proof

/-- `VARIANT` (R2, R5): the CHIP-8 machine or the SUPER-CHIP machine. -/
inductive Variant where
  | base
  | ext
  deriving DecidableEq, Repr, Inhabited

/-- `FX1E_VF_ELSE` (R5, R73, decision D3): what FX1E does to VF when the sum does not pass 0xFFF. -/
inductive VfElse where
  | clear
  | keep
  deriving DecidableEq, Repr, Inhabited

/-- The configuration record (R5): set before reset, never changed while the machine runs. The
parameters that R5 fixes (MEM_SIZE, LOAD_BASE, NREGS, NFLAGS, the font addresses, the display sizes)
are constants of the model; TICK_HZ is timing only. -/
structure Config where
  /-- `VARIANT`. -/
  variant : Variant
  /-- `IS_OLDER`; read as false when `VARIANT = EXT`. -/
  isOlder : Bool
  /-- `IPT`, the instructions per tick, at least 1 (decision D13). -/
  ipt : Nat
  /-- `FX1E_VF_ELSE`. -/
  fx1eVfElse : VfElse
  /-- `FONT_LO`, 80 bytes. -/
  fontLo : Vector Byte 80
  /-- `FONT_HI`, 160 bytes. -/
  fontHi : Vector Byte 160
  deriving DecidableEq, Repr

/-- The one limit that R5 sets on a record beyond its types: `IPT` is at least 1. -/
def Config.wf (c : Config) : Bool := decide (1 ≤ c.ipt)

/-- Free value (log 2): which reading of FX1E_VF_ELSE the reset machine has (D3 leaves it OPEN). -/
opaque Config.freeVfElse : VfElse

/-- Free value (log 3): `IPT` of the reset machine is this number plus 1 (D13 leaves it OPEN, at
least 1). -/
opaque Config.freeBudget : Nat

/-- Free value (log 4): the byte of `FONT_HI` at an offset (D12 leaves the table OPEN). -/
opaque Config.freeFontHi : Nat → Byte

/-- Free value (log 6): the byte that the n-th draw of `Rand8()` answers (D16). -/
opaque Config.freeRand : Nat → Byte

/-- Free value (log 7): the sixteen key levels at the n-th sample, bit k for key k (R99). -/
opaque Config.freeKeys : Nat → BitVec 16

/-- Free value (log 8): the level of `STOP` at the n-th sample (R123). -/
opaque Config.freeStop : Nat → Bool

end Sys2Proof
end

