-- ==== Sys2Proof/Syntax.lean ====
section
/-! DEFINITION. The instructions: one constructor per row of spec/opcode_table.json, with the operand fields of 30_encoding.md R41. -/

namespace Sys2Proof

/-- A register number, the value of an X or Y field: every value 0 to 15 selects a register
(10_state.md R12). Register 15 is VF. -/
abbrev Reg := Fin 16

/-- The 44 instructions (30_encoding.md R42, R43, R44). The constructors follow the order of
spec/opcode_table.json; each docstring gives the pattern, the mnemonic and the rule. -/
inductive Instr where
  /-- 00E0 `CLS`, R90. -/
  | cls
  /-- 00EE `RET`, R50. -/
  | ret
  /-- 00CN `SCD`, R91, EXT only. -/
  | scd (n : Fin 16)
  /-- 00FB `SCR`, R92, EXT only. -/
  | scr
  /-- 00FC `SCL`, R93, EXT only. -/
  | scl
  /-- 00FD `EXIT`, R58, EXT only. -/
  | exit
  /-- 00FE `LOW`, R94, EXT only. -/
  | low
  /-- 00FF `HIGH`, R95, EXT only. -/
  | high
  /-- 1NNN `JP`, R51. -/
  | jp (nnn : BitVec 12)
  /-- 2NNN `CALL`, R52. -/
  | call (nnn : BitVec 12)
  /-- 3XNN `SE.I`, R53. -/
  | seImm (x : Reg) (nn : Byte)
  /-- 4XNN `SNE.I`, R54. -/
  | sneImm (x : Reg) (nn : Byte)
  /-- 5XY0 `SE.R`, R55. -/
  | seReg (x y : Reg)
  /-- 6XNN `LD.I`, R60. -/
  | ldImm (x : Reg) (nn : Byte)
  /-- 7XNN `ADD.I`, R61. -/
  | addImm (x : Reg) (nn : Byte)
  /-- 8XY0 `LD.R`, R62. -/
  | ldReg (x y : Reg)
  /-- 8XY1 `OR`, R63. -/
  | orReg (x y : Reg)
  /-- 8XY2 `AND`, R64. -/
  | andReg (x y : Reg)
  /-- 8XY3 `XOR`, R65. -/
  | xorReg (x y : Reg)
  /-- 8XY4 `ADD.R`, R66. -/
  | addReg (x y : Reg)
  /-- 8XY5 `SUB`, R67. -/
  | sub (x y : Reg)
  /-- 8XY6 `SHR`, R68. -/
  | shr (x y : Reg)
  /-- 8XY7 `SUBN`, R69. -/
  | subn (x y : Reg)
  /-- 8XYE `SHL`, R70. -/
  | shl (x y : Reg)
  /-- 9XY0 `SNE.R`, R56. -/
  | sneReg (x y : Reg)
  /-- ANNN `LDI`, R72. -/
  | ldIdx (nnn : BitVec 12)
  /-- BNNN `JPO`, R57; its X operand is the top digit of NNN. -/
  | jpo (nnn : BitVec 12)
  /-- CXNN `RND`, R71. -/
  | rnd (x : Reg) (nn : Byte)
  /-- DXYN `DRW`, R96; in EXT only with N from 1 to 15. -/
  | drw (x y : Reg) (n : Fin 16)
  /-- DXY0 `DRW16`, R97, EXT only. -/
  | drw16 (x y : Reg)
  /-- EX9E `SKP`, R101. -/
  | skp (x : Reg)
  /-- EXA1 `SKNP`, R102. -/
  | sknp (x : Reg)
  /-- FX07 `GETDT`, R105. -/
  | getdt (x : Reg)
  /-- FX0A `WKEY`, R103. -/
  | wkey (x : Reg)
  /-- FX15 `SETDT`, R106. -/
  | setdt (x : Reg)
  /-- FX18 `SETST`, R107. -/
  | setst (x : Reg)
  /-- FX1E `ADDI`, R73. -/
  | addIdx (x : Reg)
  /-- FX29 `FONT`, R74. -/
  | font (x : Reg)
  /-- FX30 `FONTHI`, R75, EXT only. -/
  | fonthi (x : Reg)
  /-- FX33 `BCD`, R76. -/
  | bcd (x : Reg)
  /-- FX55 `STM`, R77. -/
  | stm (x : Reg)
  /-- FX65 `LDM`, R78. -/
  | ldm (x : Reg)
  /-- FX75 `STF`, R79, EXT only, X at most 7. -/
  | stf (x : Reg)
  /-- FX85 `LDF`, R80, EXT only, X at most 7. -/
  | ldf (x : Reg)
  deriving DecidableEq, Repr

end Sys2Proof
end

