-- ==== Sys2Proof/WellFormed.lean ====
section
/-! DEFINITION. Which instructions exist in which variant (30_encoding.md R44): the extended forms only in EXT, FX75 and FX85 only with X at most 7, DXYN with N = 0 only in BASE. -/

namespace Sys2Proof

/-- True when `v` is the SUPER-CHIP variant: the predicate `EXT_OPS` of 00_scope.md R6. -/
def Variant.isExt : Variant → Bool
  | .base => false
  | .ext => true

/-- The instruction is one of the defined forms of the variant (30_encoding.md R44). -/
def Instr.wf (v : Variant) : Instr → Bool
  | .scd _ | .scr | .scl | .exit | .low | .high | .drw16 _ _ | .fonthi _ => v.isExt
  | .stf x | .ldf x => v.isExt && decide (x.val ≤ 7)
  | .drw _ _ n => !(v.isExt && decide (n = 0))
  | .cls | .ret | .jp _ | .call _ | .seImm _ _ | .sneImm _ _ | .seReg _ _ | .ldImm _ _
  | .addImm _ _ | .ldReg _ _ | .orReg _ _ | .andReg _ _ | .xorReg _ _ | .addReg _ _ | .sub _ _
  | .shr _ _ | .subn _ _ | .shl _ _ | .sneReg _ _ | .ldIdx _ | .jpo _ | .rnd _ _ | .skp _
  | .sknp _ | .getdt _ | .wkey _ | .setdt _ | .setst _ | .addIdx _ | .font _ | .bcd _ | .stm _
  | .ldm _ => true

end Sys2Proof
end

