-- ==== Sys2Proof/Decode.lean ====
section
/-! DEFINITION. The decoder (30_encoding.md R39 to R46), total on any bytes and rejecting by name, and after it the encoder, written from the same formats of R40. -/

namespace Sys2Proof

/-- Why a word is illegal: the classes (a) to (g) of 30_encoding.md R45, and a fetch of fewer than two
bytes, which the machine itself never makes. -/
inductive Illegal where
  /-- R45 (a): 0x0nnn that table A does not list. -/
  | unlistedSys
  /-- R45 (b): 0x5XYn with n not 0. -/
  | lowNibble5
  /-- R45 (b): 0x9XYn with n not 0. -/
  | lowNibble9
  /-- R45 (c): 0x8XYn with n in 8 to D or F. -/
  | unlistedAlu
  /-- R45 (d): 0xEXnn that table C does not list. -/
  | unlistedKey
  /-- R45 (e): 0xFXnn that table D does not list. -/
  | unlistedMisc
  /-- R45 (f): FX75 or FX85 with X above 7. -/
  | rplRange
  /-- R45 (g): an extended-only word met in BASE. -/
  | extOnly
  /-- Fewer than two bytes. -/
  | truncated
  deriving DecidableEq, Repr

/-- `op[hi:lo]` as an unsigned number (00_scope.md R7). -/
def field (op : Word) (hi lo : Nat) : Nat := op.toNat / 2 ^ lo % 2 ^ (hi + 1 - lo)

/-- X = op[11:8] (R41). -/
def fieldX (op : Word) : Reg := Fin.ofNat 16 (field op 11 8)

/-- Y = op[7:4] (R41). -/
def fieldY (op : Word) : Reg := Fin.ofNat 16 (field op 7 4)

/-- N = op[3:0] (R41). -/
def fieldN (op : Word) : Fin 16 := Fin.ofNat 16 (field op 3 0)

/-- NN = op[7:0] (R41). -/
def fieldNN (op : Word) : Byte := BitVec.ofNat 8 (field op 7 0)

/-- NNN = op[11:0] (R41). -/
def fieldNNN (op : Word) : BitVec 12 := BitVec.ofNat 12 (field op 11 0)

/-- Variant gating (R44): an extended-only word is illegal in BASE. -/
def onlyInExt (v : Variant) (i : Instr) : Except Illegal Instr :=
  if v.isExt then .ok i else .error .extOnly

/-- FX75 and FX85: EXT only, and only for X at most 7 (R43 table D, R45 (f)). -/
def onlyLowX (v : Variant) (x : Reg) (i : Instr) : Except Illegal Instr :=
  if v.isExt then (if x.val ≤ 7 then .ok i else .error .rplRange) else .error .extOnly

/-- Table A of R43: `op[15:12] = 0`, the whole word selects. -/
def decodeSys (v : Variant) (op : Word) : Except Illegal Instr :=
  if op = 0x00E0#16 then .ok .cls
  else if op = 0x00EE#16 then .ok .ret
  else if field op 15 4 = 0x00C then onlyInExt v (.scd (fieldN op))
  else if op = 0x00FB#16 then onlyInExt v .scr
  else if op = 0x00FC#16 then onlyInExt v .scl
  else if op = 0x00FD#16 then onlyInExt v .exit
  else if op = 0x00FE#16 then onlyInExt v .low
  else if op = 0x00FF#16 then onlyInExt v .high
  else .error .unlistedSys

/-- Table B of R43: `op[15:12] = 8`, `op[3:0]` selects. -/
def decodeAlu (op : Word) : Except Illegal Instr :=
  match field op 3 0 with
  | 0x0 => .ok (.ldReg (fieldX op) (fieldY op))
  | 0x1 => .ok (.orReg (fieldX op) (fieldY op))
  | 0x2 => .ok (.andReg (fieldX op) (fieldY op))
  | 0x3 => .ok (.xorReg (fieldX op) (fieldY op))
  | 0x4 => .ok (.addReg (fieldX op) (fieldY op))
  | 0x5 => .ok (.sub (fieldX op) (fieldY op))
  | 0x6 => .ok (.shr (fieldX op) (fieldY op))
  | 0x7 => .ok (.subn (fieldX op) (fieldY op))
  | 0xE => .ok (.shl (fieldX op) (fieldY op))
  | _ => .error .unlistedAlu

/-- Table C of R43: `op[15:12] = 0xE`, `op[7:0]` selects. -/
def decodeKey (op : Word) : Except Illegal Instr :=
  match field op 7 0 with
  | 0x9E => .ok (.skp (fieldX op))
  | 0xA1 => .ok (.sknp (fieldX op))
  | _ => .error .unlistedKey

/-- Table D of R43: `op[15:12] = 0xF`, `op[7:0]` selects. -/
def decodeMisc (v : Variant) (op : Word) : Except Illegal Instr :=
  match field op 7 0 with
  | 0x07 => .ok (.getdt (fieldX op))
  | 0x0A => .ok (.wkey (fieldX op))
  | 0x15 => .ok (.setdt (fieldX op))
  | 0x18 => .ok (.setst (fieldX op))
  | 0x1E => .ok (.addIdx (fieldX op))
  | 0x29 => .ok (.font (fieldX op))
  | 0x30 => onlyInExt v (.fonthi (fieldX op))
  | 0x33 => .ok (.bcd (fieldX op))
  | 0x55 => .ok (.stm (fieldX op))
  | 0x65 => .ok (.ldm (fieldX op))
  | 0x75 => onlyLowX v (fieldX op) (.stf (fieldX op))
  | 0x85 => onlyLowX v (fieldX op) (.ldf (fieldX op))
  | _ => .error .unlistedMisc

/-- The draw row: in EXT, N = 0 selects DXY0 (R42, R44). -/
def decodeDraw (v : Variant) (op : Word) : Instr :=
  if v.isExt && decide (fieldN op = 0) then .drw16 (fieldX op) (fieldY op)
  else .drw (fieldX op) (fieldY op) (fieldN op)

/-- The opcode map (R42): the first level is `op[15:12]`. The last arm is 0xF, the only value left. -/
def decodeWord (v : Variant) (op : Word) : Except Illegal Instr :=
  match field op 15 12 with
  | 0x0 => decodeSys v op
  | 0x1 => .ok (.jp (fieldNNN op))
  | 0x2 => .ok (.call (fieldNNN op))
  | 0x3 => .ok (.seImm (fieldX op) (fieldNN op))
  | 0x4 => .ok (.sneImm (fieldX op) (fieldNN op))
  | 0x5 => if field op 3 0 = 0 then .ok (.seReg (fieldX op) (fieldY op)) else .error .lowNibble5
  | 0x6 => .ok (.ldImm (fieldX op) (fieldNN op))
  | 0x7 => .ok (.addImm (fieldX op) (fieldNN op))
  | 0x8 => decodeAlu op
  | 0x9 => if field op 3 0 = 0 then .ok (.sneReg (fieldX op) (fieldY op)) else .error .lowNibble9
  | 0xA => .ok (.ldIdx (fieldNNN op))
  | 0xB => .ok (.jpo (fieldNNN op))
  | 0xC => .ok (.rnd (fieldX op) (fieldNN op))
  | 0xD => .ok (decodeDraw v op)
  | 0xE => decodeKey op
  | _ => decodeMisc v op

/-- Two bytes as a big-endian word: `hi ++ lo` (20_memory.md R30, 00_scope.md R7). -/
def bigEndian (hi lo : Byte) : Word := hi ++ lo

/-- The decoder on a byte sequence: the first two bytes are the instruction, and the rest of the list
is returned with it. Every instruction is two bytes long (R40). -/
def decode (v : Variant) : List Byte → Except Illegal (Instr × List Byte)
  | hi :: lo :: rest => (decodeWord v (bigEndian hi lo)).map (fun i => (i, rest))
  | [_] => .error .truncated
  | [] => .error .truncated

/-- The two bytes of an instruction word in memory order, the high byte first (R30). -/
def wordBytes (op : Word) : List Byte :=
  [BitVec.ofNat 8 (field op 15 8), BitVec.ofNat 8 (field op 7 0)]

/-- The host's view of the decoder: bit 0 of `w` is the least significant bit of the instruction word
and the bits from `nbits` on are 0. The variant is EXT, the variant of the reset machine (log 1). -/
def decodeTableWord (nbits w : Nat) : Option Instr :=
  match decode .ext (wordBytes (BitVec.ofNat 16 (w % 2 ^ nbits))) with
  | .ok (i, _) => some i
  | .error _ => none

/-- A register number as a 4-bit field. -/
def nibble (x : Fin 16) : BitVec 4 := BitVec.ofFin x

/-- Format `XNN` (R40): opcode, X, NN. -/
def encXNN (opc : BitVec 4) (x : Reg) (nn : Byte) : Word := opc ++ nibble x ++ nn

/-- Formats `XY` and `XYN` (R40): opcode, X, Y, low nibble. -/
def encXYN (opc : BitVec 4) (x y : Reg) (n : BitVec 4) : Word := opc ++ nibble x ++ nibble y ++ n

/-- Format `NNN` (R40): opcode, NNN. -/
def encNNN (opc : BitVec 4) (nnn : BitVec 12) : Word := opc ++ nnn

/-- The instruction word of an instruction, from the formats of R40 and the selectors of R42, R43. -/
def encode : Instr → Word
  | .cls => 0x00E0#16
  | .ret => 0x00EE#16
  | .scd n => 0x00C#12 ++ nibble n
  | .scr => 0x00FB#16
  | .scl => 0x00FC#16
  | .exit => 0x00FD#16
  | .low => 0x00FE#16
  | .high => 0x00FF#16
  | .jp nnn => encNNN 0x1#4 nnn
  | .call nnn => encNNN 0x2#4 nnn
  | .seImm x nn => encXNN 0x3#4 x nn
  | .sneImm x nn => encXNN 0x4#4 x nn
  | .seReg x y => encXYN 0x5#4 x y 0x0#4
  | .ldImm x nn => encXNN 0x6#4 x nn
  | .addImm x nn => encXNN 0x7#4 x nn
  | .ldReg x y => encXYN 0x8#4 x y 0x0#4
  | .orReg x y => encXYN 0x8#4 x y 0x1#4
  | .andReg x y => encXYN 0x8#4 x y 0x2#4
  | .xorReg x y => encXYN 0x8#4 x y 0x3#4
  | .addReg x y => encXYN 0x8#4 x y 0x4#4
  | .sub x y => encXYN 0x8#4 x y 0x5#4
  | .shr x y => encXYN 0x8#4 x y 0x6#4
  | .subn x y => encXYN 0x8#4 x y 0x7#4
  | .shl x y => encXYN 0x8#4 x y 0xE#4
  | .sneReg x y => encXYN 0x9#4 x y 0x0#4
  | .ldIdx nnn => encNNN 0xA#4 nnn
  | .jpo nnn => encNNN 0xB#4 nnn
  | .rnd x nn => encXNN 0xC#4 x nn
  | .drw x y n => encXYN 0xD#4 x y (nibble n)
  | .drw16 x y => encXYN 0xD#4 x y 0x0#4
  | .skp x => encXNN 0xE#4 x 0x9E#8
  | .sknp x => encXNN 0xE#4 x 0xA1#8
  | .getdt x => encXNN 0xF#4 x 0x07#8
  | .wkey x => encXNN 0xF#4 x 0x0A#8
  | .setdt x => encXNN 0xF#4 x 0x15#8
  | .setst x => encXNN 0xF#4 x 0x18#8
  | .addIdx x => encXNN 0xF#4 x 0x1E#8
  | .font x => encXNN 0xF#4 x 0x29#8
  | .fonthi x => encXNN 0xF#4 x 0x30#8
  | .bcd x => encXNN 0xF#4 x 0x33#8
  | .stm x => encXNN 0xF#4 x 0x55#8
  | .ldm x => encXNN 0xF#4 x 0x65#8
  | .stf x => encXNN 0xF#4 x 0x75#8
  | .ldf x => encXNN 0xF#4 x 0x85#8

end Sys2Proof
end

