-- ==== Sys2Proof/Machine/Instance.lean ====
section
/-! DEFINITION. The quirk predicates of 00_scope.md R6, and the configuration record of the reset machine: EXT, the default FONT_LO of 70_reset_and_hazards.md R130, and free values for what R5 leaves OPEN. -/

namespace Sys2Proof

/-- `EXT_OPS` (R6): the extended opcodes, the 16 by 16 sprite, the RPL flags and the resolution switch
exist. -/
def Config.extOps (c : Config) : Bool := c.variant.isExt

/-- `BASE` and `IS_OLDER`, the condition of three of the predicates of R6; `IS_OLDER` is read as false
in EXT (R5). -/
def Config.legacy (c : Config) : Bool := !c.variant.isExt && c.isOlder

/-- `Q_SHIFT_VY` (R6): 8XY6 and 8XYE first copy VY into VX. -/
def Config.qShiftVy (c : Config) : Bool := c.legacy

/-- `Q_JUMP_V0` (R6): BNNN adds V0. -/
def Config.qJumpV0 (c : Config) : Bool := c.legacy

/-- `Q_MEM_INC` (R6): FX55 and FX65 advance the index register. -/
def Config.qMemInc (c : Config) : Bool := c.legacy

/-- `Q_LOGIC_VF0` (R6, decision D1): 8XY1, 8XY2, 8XY3 zero VF; it depends on the variant alone. -/
def Config.qLogicVf0 (c : Config) : Bool := !c.variant.isExt

/-- `MEM_SIZE` (R5): 4096 bytes. -/
def memSize : Nat := 4096

/-- `LOAD_BASE` (R5): 0x200. -/
def loadBase : Nat := 0x200

/-- `FONT_LO_BASE` (R5): 0x50. -/
def fontLoBase : Nat := 0x50

/-- `FONT_HI_BASE` (R5): 0xA0. -/
def fontHiBase : Nat := 0xA0

/-- The default `FONT_LO` of R130 (general knowledge G4, log 5), digits 0 to 7. -/
def fontLoLower : List Byte :=
  [0xF0, 0x90, 0x90, 0x90, 0xF0,  0x20, 0x60, 0x20, 0x20, 0x70,
   0xF0, 0x10, 0xF0, 0x80, 0xF0,  0xF0, 0x10, 0xF0, 0x10, 0xF0,
   0x90, 0x90, 0xF0, 0x10, 0x10,  0xF0, 0x80, 0xF0, 0x10, 0xF0,
   0xF0, 0x80, 0xF0, 0x90, 0xF0,  0xF0, 0x10, 0x20, 0x40, 0x40]

/-- The default `FONT_LO` of R130 (general knowledge G4, log 5), digits 8 to F. -/
def fontLoUpper : List Byte :=
  [0xF0, 0x90, 0xF0, 0x90, 0xF0,  0xF0, 0x90, 0xF0, 0x10, 0xF0,
   0xF0, 0x90, 0xF0, 0x90, 0x90,  0xE0, 0x90, 0xE0, 0x90, 0xE0,
   0xF0, 0x80, 0x80, 0x80, 0xF0,  0xE0, 0x90, 0x90, 0x90, 0xE0,
   0xF0, 0x80, 0xF0, 0x80, 0xF0,  0xF0, 0x80, 0xF0, 0x80, 0x80]

/-- The default `FONT_LO`, 80 bytes, glyph d at offset 5 d (R130). -/
def fontLoDefault : Vector Byte 80 :=
  Vector.ofFn (fun j : Fin 80 => (fontLoLower ++ fontLoUpper).getD j.val 0)

/-- The configuration of the reset machine (log 1): EXT, where `IS_OLDER` is read as false; `IPT`,
`FX1E_VF_ELSE` and `FONT_HI` are free values (logs 2, 3, 4). -/
def Config.standard : Config where
  variant := .ext
  isOlder := false
  ipt := Config.freeBudget + 1
  fx1eVfElse := Config.freeVfElse
  fontLo := fontLoDefault
  fontHi := Vector.ofFn (fun j : Fin 160 => Config.freeFontHi j.val)

end Sys2Proof
end

