-- ==== Sys2Proof/Machine/State.lean ====
section
/-! DEFINITION. The state of the machine as plain data (10_state.md R10 to R27), the reasons a step can stop, and the state after reset (70_reset_and_hazards.md R128). -/

namespace Sys2Proof.Machine

/-- Memory: the cells that differ from the reset image, addresses strictly rising (log 15). -/
abbrev Memory := List Host.Cell

/-- One row of the framebuffer: bit x is the pixel of column x, 1 lit (10_state.md R19, log 25). -/
abbrev Row := BitVec 128

/-- The framebuffer at its full capacity of 128 columns by 64 rows, row 0 the top (10_state.md R19). -/
abbrev Framebuffer := Vector Row 64

/-- `WAIT`, the key-wait phase (10_state.md R21). -/
inductive KeyWait where
  | none
  | release (k : Fin 16)
  deriving DecidableEq, Repr

/-- The four causes of a halt (60_exceptions.md R108). -/
inductive HaltCause where
  | decode
  | stackUnderflow
  | exit
  | stopped
  deriving DecidableEq, Repr

/-- `RUN`, the run state with its halt record (10_state.md R22). -/
inductive RunState where
  | running
  | halted (cause : HaltCause) (op pc : Word)
  deriving DecidableEq, Repr

/-- One input port as the model's steps see it (logs 6, 7, 8): the answers still scripted, oldest
first, and how many answers have been taken. Once the script is empty the next answer is a free
value indexed by `taken`. -/
structure Feed (α : Type) where
  script : List α
  taken : Nat
  deriving DecidableEq, Repr

/-- The state of the machine. The first twelve fields after `cfg` are the spec's state (R10); `cfg` is
the configuration record (log 1); the last six are the model's own (logs 6 to 11). -/
structure State where
  /-- The configuration record (00_scope.md R5); no step changes it. -/
  cfg : Config
  /-- `MEM` (R11). -/
  mem : Memory
  /-- `V[0]` to `V[15]`; `V[15]` is VF (R12, R13). -/
  v : Vector Byte 16
  /-- `I` (R14). -/
  i : Word
  /-- `PC` (R15). -/
  pc : Word
  /-- `STK`, the last pushed value last (R16). -/
  stk : List Word
  /-- `DT` (R17). -/
  dt : Byte
  /-- `ST` (R17). -/
  st : Byte
  /-- `RPL[0]` to `RPL[7]` (R18). -/
  rpl : Vector Byte 8
  /-- `FB` (R19). -/
  fb : Framebuffer
  /-- `HIRES` (R20). -/
  hires : Bool
  /-- `WAIT` (R21). -/
  wait : KeyWait
  /-- `RUN` (R22). -/
  run : RunState
  /-- The steps taken in the current tick, 0 exactly at a tick boundary (60_exceptions.md R121). -/
  burst : Nat
  /-- The step called `Yield()` (60_exceptions.md R122). -/
  yielded : Bool
  /-- The `PRESENT` pulses raised since reset (60_exceptions.md R120). -/
  presents : Nat
  /-- The key levels the environment answers, one 16-bit snapshot a sample (R24, R99). -/
  keys : Feed (BitVec 16)
  /-- The levels of `STOP` the environment answers, one a tick boundary (R24, R123). -/
  stop : Feed Bool
  /-- The bytes that `Rand8()` draws (R23, R71). -/
  rand : Feed Byte
  deriving DecidableEq, Repr

/-- Why a step faults. -/
inductive Fault where
  /-- Raised by `step` alone, when `RUN` is already `HALTED`: there is no step (30_encoding.md R39,
  60_exceptions.md R108). It carries the halt report. Safe: the machine takes no step either. -/
  | halted (cause : HaltCause) (op pc : Word)
  deriving DecidableEq, Repr

/-- Why an action is refused. -/
inductive Refusal where
  /-- Raised by an arm of `exec` whose instruction has no meaning yet; no arm does. Safe. -/
  | notModelled (mnemonic : String)
  /-- Raised by `State.load` alone, for a ROM of more than 3584 bytes (70_reset_and_hazards.md R131,
  decision D17): the run does not start. Safe. -/
  | romTooLong (bytes : Nat)
  deriving DecidableEq, Repr

/-- A feed with no scripted answer, from which nothing has been taken. -/
def Feed.fresh (α : Type) : Feed α := ⟨[], 0⟩

/-- The machine right after reset, for any configuration record (70_reset_and_hazards.md R128,
10_state.md R26). Memory lists nothing: an unlisted cell reads as the reset image. -/
def State.resetWith (c : Config) : State where
  cfg := c
  mem := []
  v := Vector.replicate 16 0
  i := 0
  pc := 0x200
  stk := []
  dt := 0
  st := 0
  rpl := Vector.replicate 8 0
  fb := Vector.replicate 64 0
  hires := false
  wait := .none
  run := .running
  burst := 0
  yielded := false
  presents := 0
  keys := Feed.fresh (BitVec 16)
  stop := Feed.fresh Bool
  rand := Feed.fresh Byte

/-- The machine right after reset (R128), for the configuration of log 1. -/
def State.reset : State := State.resetWith Config.standard

end Sys2Proof.Machine
end

