-- ==== Sys2Proof/Machine/Ops.lean ====
section
/-! DEFINITION. The named operations over memory, registers, the stack, the inputs and the run state (00_scope.md R8), and the halt, which is what this machine has for taking an exception (60_exceptions.md R108 to R114). -/

namespace Sys2Proof.Machine

/-- What an exec or a step answers. -/
abbrev Result := Host.Outcome State Fault Refusal

/-- Apply a function to the next state of an answer; a fault or a refusal stays as it is. -/
def onNext (f : State → State) : Result → Result
  | .next s => .next (f s)
  | .fault r => .fault r
  | .refused r => .refused r

/-! ### Updates of one piece of state -/

/-- `V[x] <- b` (R8, R12). -/
def State.writeV (s : State) (x : Reg) (b : Byte) : State :=
  { s with v := s.v.set x.val b x.isLt }

/-- `RPL[k] <- b` (R18). -/
def State.writeRpl (s : State) (k : Fin 8) (b : Byte) : State :=
  { s with rpl := s.rpl.set k.val b k.isLt }

/-- Replace the memory. -/
def State.setMem (s : State) (m : Memory) : State := { s with mem := m }

/-- `I <- w` (R8). -/
def State.setI (s : State) (w : Word) : State := { s with i := w }

/-- `PC <- w` (R8). -/
def State.setPc (s : State) (w : Word) : State := { s with pc := w }

/-- Replace the call stack. -/
def State.setStk (s : State) (l : List Word) : State := { s with stk := l }

/-- `DT <- b`. -/
def State.setDt (s : State) (b : Byte) : State := { s with dt := b }

/-- `ST <- b`. -/
def State.setSt (s : State) (b : Byte) : State := { s with st := b }

/-- Replace the framebuffer. -/
def State.setFb (s : State) (f : Framebuffer) : State := { s with fb := f }

/-- `HIRES <- h`. -/
def State.setHires (s : State) (h : Bool) : State := { s with hires := h }

/-- `WAIT <- w`. -/
def State.setWait (s : State) (w : KeyWait) : State := { s with wait := w }

/-- `RUN <- r`. -/
def State.setRun (s : State) (r : RunState) : State := { s with run := r }

/-- Set the count of steps taken in the current tick. -/
def State.setBurst (s : State) (n : Nat) : State := { s with burst := n }

/-- Set the yield signal. -/
def State.setYielded (s : State) (b : Bool) : State := { s with yielded := b }

/-- Set the count of present pulses. -/
def State.setPresents (s : State) (n : Nat) : State := { s with presents := n }

/-- Replace the key feed. -/
def State.setKeys (s : State) (f : Feed (BitVec 16)) : State := { s with keys := f }

/-- Replace the STOP feed. -/
def State.setStop (s : State) (f : Feed Bool) : State := { s with stop := f }

/-- Replace the feed of drawn bytes. -/
def State.setRand (s : State) (f : Feed Byte) : State := { s with rand := f }

/-! ### Registers -/

/-- `V[x]` (R8, R12). -/
def State.readV (s : State) (x : Reg) : Byte := s.v[x.val]

/-- `RPL[k]` (R18). -/
def State.readRpl (s : State) (k : Fin 8) : Byte := s.rpl[k.val]

/-- VF, the name of `V[0xF]` (R13). -/
def vf : Reg := 15

/-! ### Memory -/

/-- The reset image (R128, R129, 20_memory.md R33): what a cell that is not listed reads as. -/
def resetByte (c : Config) (a : Nat) : Byte :=
  if fontLoBase ≤ a ∧ a < fontLoBase + 80 then (c.fontLo[a - fontLoBase]?).getD 0
  else if c.extOps ∧ fontHiBase ≤ a ∧ a < fontHiBase + 160 then (c.fontHi[a - fontHiBase]?).getD 0
  else 0

/-- The byte at an address: the listed one, else the image's. -/
def Memory.read (image : Nat → Byte) : Memory → Nat → Byte
  | [], a => image a
  | (b, w) :: m, a => if a = b then w else Memory.read image m a

/-- List a byte at an address, keeping the addresses rising. -/
def Memory.put : Memory → Nat → Byte → Memory
  | [], a, w => [(a, w)]
  | (b, x) :: m, a, w =>
    if a < b then (a, w) :: (b, x) :: m
    else if a = b then (a, w) :: m
    else (b, x) :: Memory.put m a w

/-- List nothing at an address. -/
def Memory.drop (m : Memory) (a : Nat) : Memory := m.filter (fun c => decide (c.1 ≠ a))

/-- Store a byte, keeping the canonical form: a byte equal to the image's is not listed. -/
def Memory.write (image : Nat → Byte) (m : Memory) (a : Nat) (w : Byte) : Memory :=
  if w = image a then m.drop a else m.put a w

/-- `MemRead(a, 1)`: the byte at `a mod 4096` (20_memory.md R29). -/
def State.memRead (s : State) (a : Nat) : Byte :=
  Memory.read (resetByte s.cfg) s.mem (a % memSize)

/-- `MemWrite(a, 1, w)`: store at `a mod 4096` (20_memory.md R29). -/
def State.memWrite (s : State) (a : Nat) (w : Byte) : State :=
  s.setMem (Memory.write (resetByte s.cfg) s.mem (a % memSize) w)

/-- Store bytes at ascending addresses from `a`. -/
def State.memWriteAll (s : State) (a : Nat) : List Byte → State
  | [] => s
  | w :: ws => (s.memWrite a w).memWriteAll (a + 1) ws

/-! ### Program counter and stack -/

/-- `PC <- (PC + 2) mod 65536` (30_encoding.md R39). -/
def State.advancePc (s : State) : State := s.setPc (s.pc + 2)

/-- `PC <- (PC - 2) mod 65536` (44_input_timers.md R103). -/
def State.rewindPc (s : State) : State := s.setPc (s.pc - 2)

/-- A skip: a further 2 when the condition holds (40_flow.md R49). -/
def State.skipIf (s : State) (c : Bool) : State := if c then s.advancePc else s

/-- `Push(w)` (R16): append; a push never fails. -/
def State.push (s : State) (w : Word) : State := s.setStk (s.stk ++ [w])

/-! ### Inputs -/

/-- The answer of the environment at the next sample: the oldest scripted one, else the free value. -/
def Feed.now {α : Type} (free : Nat → α) (f : Feed α) : α :=
  match f.script with
  | a :: _ => a
  | [] => free f.taken

/-- The feed after one sample. -/
def Feed.next {α : Type} (f : Feed α) : Feed α := ⟨f.script.tail, f.taken + 1⟩

/-- The sixteen levels `KEYS[0..15]` at this sample, bit k for key k (R24, R99). -/
def State.keyLevels (s : State) : BitVec 16 := s.keys.now Config.freeKeys

/-- The state after the levels were sampled. -/
def State.sampledKeys (s : State) : State := s.setKeys s.keys.next

/-- `KeyDown(k)` on one snapshot of the levels (R99). -/
def keyDown (levels : BitVec 16) (k : Fin 16) : Bool := levels.getLsbD k.val

/-- The key codes in ascending order. -/
def keyCodes : List (Fin 16) := [0, 1, 2, 3, 4, 5, 6, 7, 8, 9, 10, 11, 12, 13, 14, 15]

/-- `CurrentKey()` on one snapshot of the levels: the lowest-numbered key that is down (R100). -/
def currentKey (levels : BitVec 16) : Option (Fin 16) := keyCodes.find? (keyDown levels)

/-- The level of `STOP` at this boundary (R123). -/
def State.stopLevel (s : State) : Bool := s.stop.now Config.freeStop

/-- The state after `STOP` was sampled. -/
def State.sampledStop (s : State) : State := s.setStop s.stop.next

/-- `Rand8()`: the byte drawn at this use (R71). -/
def State.drawnByte (s : State) : Byte := s.rand.now Config.freeRand

/-- The state after a draw. -/
def State.afterDraw (s : State) : State := s.setRand s.rand.next

/-! ### The yield and the halts -/

/-- `Yield()`: this step is the last of its burst (60_exceptions.md R122). -/
def State.yieldStep (s : State) : State := s.setYielded true

/-- The halt (60_exceptions.md R108): record the cause, the word and `PC`; nothing else changes. This
is the machine's whole exception entry: there is no handler and no return (R114, R115). -/
def State.halt (s : State) (cause : HaltCause) (op : Word) : State :=
  s.setRun (.halted cause op s.pc)

/-- `raise DecodeError(op, PC)` (60_exceptions.md R109). -/
def State.raiseDecodeError (s : State) (op : Word) : State := s.halt .decode op

/-- `raise StackUnderflow(0x00EE, PC)` (60_exceptions.md R110, decision D8). -/
def State.raiseStackUnderflow (s : State) : State := s.halt .stackUnderflow 0x00EE#16

/-- `Halt(EXIT)` (40_flow.md R58, 60_exceptions.md R111). -/
def State.haltExit (s : State) : State := s.halt .exit 0x00FD#16

/-- The halt on the stop signal: the word field is 0 and means nothing (60_exceptions.md R123). -/
def State.haltStopped (s : State) : State := s.halt .stopped 0#16

/-- The spec's numbering of the causes (60_exceptions.md R108). -/
def HaltCause.code : HaltCause → Nat
  | .decode => 1
  | .stackUnderflow => 2
  | .exit => 3
  | .stopped => 4

/-- An extended-only form: its effect in EXT, a decode error on its own word in BASE (R44, R45 (g)). -/
def State.ifExt (s : State) (i : Instr) (effect : State) : Result :=
  if s.cfg.extOps then .next effect else .next (s.raiseDecodeError (encode i))

end Sys2Proof.Machine
end

