-- ==== Sys2Proof/Machine/Flags.lean ====
section
/-! DEFINITION. The flag computations: VF is the only flag (10_state.md R13), and the result is written to V[X] before the flag is written to VF (41_alu.md R59, decision D2). -/

namespace Sys2Proof.Machine

/-- A flag as VF holds it: 1 or 0. -/
def flagByte (b : Bool) : Byte := if b then 1 else 0

/-- The carry of an 8-bit addition: the sum exceeds 255 (R66). -/
def carryOut (a b : Byte) : Bool := decide (a.toNat + b.toNat > 255)

/-- No borrow in `a - b`: `a >= b` (R67, R69). -/
def noBorrow (a b : Byte) : Bool := decide (a.toNat ≥ b.toNat)

/-- The bit a shift right by one drops: bit 0 of the source (R68). -/
def lowBit (src : Byte) : Bool := src.getLsbD 0

/-- The bit a shift left by one drops: bit 7 of the source (R70). -/
def highBit (src : Byte) : Bool := src.getLsbD 7

/-- The sum of FX1E passes 0xFFF (R73). -/
def indexOverflow (i : Word) (b : Byte) : Bool := decide (i.toNat + b.toNat > 0xFFF)

/-- A flag-writing result: `V[X]` first, VF second (R59 (b)). -/
def State.writeResult (s : State) (x : Reg) (r : Byte) (flag : Bool) : State :=
  (s.writeV x r).writeV vf (flagByte flag)

/-- A logical result: VF is zeroed after it under `Q_LOGIC_VF0` (R63 to R65). -/
def State.writeLogic (s : State) (x : Reg) (r : Byte) : State :=
  if s.cfg.qLogicVf0 then (s.writeV x r).writeV vf 0 else s.writeV x r

/-- VF after FX1E (R73): 1 on overflow, else as `FX1E_VF_ELSE` says. -/
def State.writeIndexFlag (s : State) (overflow : Bool) : State :=
  if overflow then s.writeV vf 1
  else match s.cfg.fx1eVfElse with
    | .clear => s.writeV vf 0
    | .keep => s

end Sys2Proof.Machine
end

