-- ==== Sys2Proof/Machine/Operands.lean ====
section
/-! DEFINITION. The operand forms: zero extension, digits and key codes, effective addresses, the shift source and the jump register, and the register blocks of the spill and fill instructions (30_encoding.md R41, 00_scope.md R6). -/

namespace Sys2Proof.Machine

/-- `zext_16` of a byte (00_scope.md R7). -/
def zextByte (b : Byte) : Word := b.setWidth 16

/-- `zext_16` of a 12-bit address (00_scope.md R7, 30_encoding.md R41). -/
def zextAddr (nnn : BitVec 12) : Word := nnn.setWidth 16

/-- `V[x] & 0x0F`: a font digit or a key code (R74, R75, R101, R102, decision D7). -/
def digitOf (b : Byte) : Fin 16 := Fin.ofNat 16 (b &&& 0x0F#8).toNat

/-- The effective address `I + k`, not yet reduced (42_index_memory.md). -/
def State.ea (s : State) (k : Nat) : Nat := s.i.toNat + k

/-- A number as the index register holds it, reduced modulo 4096 (R14). -/
def indexWord (n : Nat) : Word := BitVec.ofNat 16 (n % memSize)

/-- The value 8XY6 and 8XYE shift (R68, R70): `V[Y]` under `Q_SHIFT_VY`, else `V[X]`. -/
def State.shiftSource (s : State) (x y : Reg) : Byte :=
  if s.cfg.qShiftVy then s.readV y else s.readV x

/-- X of a BNNN: the top digit of NNN (R41, R57, conflict C2). -/
def topDigit (nnn : BitVec 12) : Reg := Fin.ofNat 16 (nnn.toNat / 256)

/-- The register BNNN adds (R57): V0 under `Q_JUMP_V0`, else the one X selects. -/
def State.jumpOffset (s : State) (nnn : BitVec 12) : Byte :=
  if s.cfg.qJumpV0 then s.readV 0 else s.readV (topDigit nnn)

/-- The general register of a counted loop. -/
def loopReg (k : Nat) : Reg := Fin.ofNat 16 k

/-- The RPL register of a counted loop. -/
def loopRpl (k : Nat) : Fin 8 := Fin.ofNat 8 k

/-- `for k in 0 .. n-1: MemWrite(I + k, 1, V[k])` (R77). -/
def State.spill (s : State) : Nat → State
  | 0 => s
  | k + 1 => (s.spill k).memWrite (s.ea k) (s.readV (loopReg k))

/-- `for k in 0 .. n-1: V[k] <- MemRead(I + k, 1)` (R78). -/
def State.fill (s : State) : Nat → State
  | 0 => s
  | k + 1 => (s.fill k).writeV (loopReg k) (s.memRead (s.ea k))

/-- `for k in 0 .. n-1: RPL[k] <- V[k]` (R79). -/
def State.spillRpl (s : State) : Nat → State
  | 0 => s
  | k + 1 => (s.spillRpl k).writeRpl (loopRpl k) (s.readV (loopReg k))

/-- `for k in 0 .. n-1: V[k] <- RPL[k]` (R80). -/
def State.fillRpl (s : State) : Nat → State
  | 0 => s
  | k + 1 => (s.fillRpl k).writeV (loopReg k) (s.readRpl (loopRpl k))

/-- The legacy side effect of FX55 and FX65 (R77, R78, decision D22): under `Q_MEM_INC` the index
register advances by the number of registers moved, modulo 4096. -/
def State.advanceIndex (s : State) (n : Nat) : State :=
  if s.cfg.qMemInc then s.setI (indexWord (s.ea n)) else s

/-- The address of the low-resolution glyph of a digit (R74). -/
def glyphLo (d : Fin 16) : Word := BitVec.ofNat 16 (fontLoBase + 5 * d.val)

/-- The address of the high-resolution glyph of a digit (R75). -/
def glyphHi (d : Fin 16) : Word := BitVec.ofNat 16 (fontHiBase + 10 * d.val)

/-- A key code as the byte FX0A writes. -/
def keyByte (k : Fin 16) : Byte := BitVec.ofNat 8 k.val

end Sys2Proof.Machine
end

