-- ==== Sys2Proof/Machine/Alu.lean ====
section
/-! DEFINITION. The register and arithmetic instructions (41_alu.md R59 to R71). -/

namespace Sys2Proof.Machine

/-- 6XNN `LD Vx, nn` (R60). -/
def execLdImm (x : Reg) (nn : Byte) (s : State) : Result := .next (s.writeV x nn)

/-- 7XNN `ADD Vx, nn` (R61): no flag. -/
def execAddImm (x : Reg) (nn : Byte) (s : State) : Result := .next (s.writeV x (s.readV x + nn))

/-- 8XY0 `LD Vx, Vy` (R62). -/
def execLdReg (x y : Reg) (s : State) : Result := .next (s.writeV x (s.readV y))

/-- 8XY1 `OR Vx, Vy` (R63). -/
def execOrReg (x y : Reg) (s : State) : Result := .next (s.writeLogic x (s.readV x ||| s.readV y))

/-- 8XY2 `AND Vx, Vy` (R64). -/
def execAndReg (x y : Reg) (s : State) : Result := .next (s.writeLogic x (s.readV x &&& s.readV y))

/-- 8XY3 `XOR Vx, Vy` (R65). -/
def execXorReg (x y : Reg) (s : State) : Result := .next (s.writeLogic x (s.readV x ^^^ s.readV y))

/-- 8XY4 `ADD Vx, Vy` (R66). -/
def execAddReg (x y : Reg) (s : State) : Result :=
  .next (s.writeResult x (s.readV x + s.readV y) (carryOut (s.readV x) (s.readV y)))

/-- 8XY5 `SUB Vx, Vy` (R67). -/
def execSub (x y : Reg) (s : State) : Result :=
  .next (s.writeResult x (s.readV x - s.readV y) (noBorrow (s.readV x) (s.readV y)))

/-- 8XY6 `SHR Vx, Vy` (R68). -/
def execShr (x y : Reg) (s : State) : Result :=
  .next (s.writeResult x (s.shiftSource x y >>> 1) (lowBit (s.shiftSource x y)))

/-- 8XY7 `SUBN Vx, Vy` (R69). -/
def execSubn (x y : Reg) (s : State) : Result :=
  .next (s.writeResult x (s.readV y - s.readV x) (noBorrow (s.readV y) (s.readV x)))

/-- 8XYE `SHL Vx, Vy` (R70). -/
def execShl (x y : Reg) (s : State) : Result :=
  .next (s.writeResult x (s.shiftSource x y <<< 1) (highBit (s.shiftSource x y)))

/-- CXNN `RND Vx, nn` (R71). -/
def execRnd (x : Reg) (nn : Byte) (s : State) : Result :=
  .next (s.afterDraw.writeV x (s.drawnByte &&& nn))

end Sys2Proof.Machine
end

