-- ==== Sys2Proof/Machine/Screen.lean ====
section
/-! DEFINITION. The framebuffer operations and the sprite decoder (43_display.md R81 to R89). -/

namespace Sys2Proof.Machine

/-- `W`, the active width (R81). -/
def State.width (s : State) : Nat := if s.hires then 128 else 64

/-- `H`, the active height (R81). -/
def State.height (s : State) : Nat := if s.hires then 64 else 32

/-- Row y of the framebuffer, dark when there is no such row. -/
def rowOf (fb : Framebuffer) (y : Nat) : Row := (fb[y]?).getD 0

/-- `FB[x, y]`: column x, row y, 1 lit (R81). -/
def pixel (fb : Framebuffer) (x y : Nat) : Bool := (rowOf fb y).getLsbD x

/-- `Flip(x, y)` (R82): toggle the pixel, and return what it was. -/
def flipPixel (fb : Framebuffer) (x y : Nat) : Framebuffer × Bool :=
  (fb.setIfInBounds y (rowOf fb y ^^^ (1#128 <<< x)), pixel fb x y)

/-- `Clear()` (R83): every pixel of the buffer, active or not, becomes 0. -/
def blankScreen : Framebuffer := Vector.replicate 64 0

/-- The columns of the active region, as a row: bits 0 to w - 1. -/
def activeColumns (w : Nat) : Row := BitVec.ofNat 128 (2 ^ w - 1)

/-- A row whose active columns are replaced; the columns outside the active region stay. -/
def replaceActive (w : Nat) (old new : Row) : Row :=
  (new &&& activeColumns w) ||| (old &&& ~~~activeColumns w)

/-- Change each row of the active region; the rows outside it stay. -/
def mapActiveRows (w h : Nat) (fb : Framebuffer) (new : Nat → Row) : Framebuffer :=
  Vector.ofFn fun y : Fin 64 =>
    if y.val < h then replaceActive w (rowOf fb y.val) (new y.val) else rowOf fb y.val

/-- `ScrollDown(n)` (R84): row y takes row y - n, the top n rows become dark. -/
def scrollDown (w h n : Nat) (fb : Framebuffer) : Framebuffer :=
  mapActiveRows w h fb fun y => if y < n then 0 else rowOf fb (y - n)

/-- `ScrollRight4()` (R85): column x takes column x - 4, the left 4 columns become dark. -/
def scrollRight4 (w h : Nat) (fb : Framebuffer) : Framebuffer :=
  mapActiveRows w h fb fun y => rowOf fb y <<< 4

/-- `ScrollLeft4()` (R86): column x takes column x + 4, the right 4 columns become dark. -/
def scrollLeft4 (w h : Nat) (fb : Framebuffer) : Framebuffer :=
  mapActiveRows w h fb fun y => (rowOf fb y &&& activeColumns w) >>> 4

/-- `SwitchResolution(h)` (R87): set the mode and clear, on every call. -/
def State.switchResolution (s : State) (h : Bool) : State := (s.setHires h).setFb blankScreen

/-- `SmallBit(r, c)` (R88): bit 7 - c of the byte at I + r. -/
def State.smallBit (s : State) (r c : Nat) : Bool := (s.memRead (s.ea r)).getLsbD (7 - c)

/-- `LargeBit(r, c)` (R89): the first byte of a row is its left half. -/
def State.largeBit (s : State) (r c : Nat) : Bool :=
  if c < 8 then (s.memRead (s.ea (2 * r))).getLsbD (7 - c)
  else (s.memRead (s.ea (2 * r + 1))).getLsbD (15 - c)

/-- The pixels DXYN flips (R96), in the order of its loops: rows past the bottom edge are not drawn,
columns past the right edge are dropped. -/
def State.smallPixels (s : State) (x0 y0 n : Nat) : List (Nat × Nat) :=
  (List.range n).flatMap fun r =>
    if y0 + r < s.height then
      ((List.range 8).filter fun c => decide (x0 + c < s.width) && s.smallBit r c).map
        fun c => (x0 + c, y0 + r)
    else []

/-- The pixels DXY0 flips (R97), in the order of its loops: rows past the bottom edge are not drawn,
columns wrap around the active width. -/
def State.largePixels (s : State) (x0 y0 : Nat) : List (Nat × Nat) :=
  (List.range 16).flatMap fun r =>
    if y0 + r < s.height then
      ((List.range 16).filter fun c => s.largeBit r c).map
        fun c => ((x0 + c) % s.width, y0 + r)
    else []

/-- Flip pixels one after the other; the answer is true when some flip turned a lit pixel off. -/
def flipAll : List (Nat × Nat) → Framebuffer → Framebuffer × Bool
  | [], fb => (fb, false)
  | (x, y) :: ps, fb =>
    let one := flipPixel fb x y
    let rest := flipAll ps one.1
    (rest.1, one.2 || rest.2)

/-- The effect of a draw on the state (R96, R97): the flips, then VF as the collision bit, then the
yield. -/
def State.drawPixels (s : State) (ps : List (Nat × Nat)) : State :=
  ((s.setFb (flipAll ps s.fb).1).writeV vf (flagByte (flipAll ps s.fb).2)).yieldStep

/-- The origin column of a draw, `V[X] mod W`. -/
def State.originX (s : State) (x : Reg) : Nat := (s.readV x).toNat % s.width

/-- The origin row of a draw, `V[Y] mod H`. -/
def State.originY (s : State) (y : Reg) : Nat := (s.readV y).toNat % s.height

/-- The 8-wide draw of R96. -/
def State.drawSmall (s : State) (x y : Reg) (n : Nat) : State :=
  s.drawPixels (s.smallPixels (s.originX x) (s.originY y) n)

/-- The 16 by 16 draw of R97. -/
def State.drawLarge (s : State) (x y : Reg) : State :=
  s.drawPixels (s.largePixels (s.originX x) (s.originY y))

end Sys2Proof.Machine
end

