-- ==== Sys2Proof/Machine/Display.lean ====
section
/-! DEFINITION. The display instructions (43_display.md R90 to R97). -/

namespace Sys2Proof.Machine

/-- 00E0 `CLS` (R90): HIRES is not changed and the burst goes on. -/
def execCls (s : State) : Result := .next (s.setFb blankScreen)

/-- 00CN `SCD n` (R91): EXT only. -/
def execScd (n : Fin 16) (s : State) : Result :=
  s.ifExt (.scd n) (s.setFb (scrollDown s.width s.height n.val s.fb))

/-- 00FB `SCR` (R92): EXT only. -/
def execScr (s : State) : Result := s.ifExt .scr (s.setFb (scrollRight4 s.width s.height s.fb))

/-- 00FC `SCL` (R93): EXT only. -/
def execScl (s : State) : Result := s.ifExt .scl (s.setFb (scrollLeft4 s.width s.height s.fb))

/-- 00FE `LOW` (R94): EXT only. -/
def execLow (s : State) : Result := s.ifExt .low (s.switchResolution false)

/-- 00FF `HIGH` (R95): EXT only. -/
def execHigh (s : State) : Result := s.ifExt .high (s.switchResolution true)

/-- DXYN `DRW Vx, Vy, n` (R96). In EXT the word with N = 0 is DXY0 (R44), which the decoder never gives
as this instruction; the meaning follows the word (log 14). -/
def execDrw (x y : Reg) (n : Fin 16) (s : State) : Result :=
  .next (if s.cfg.extOps ∧ n = 0 then s.drawLarge x y else s.drawSmall x y n.val)

/-- DXY0 `DRW16 Vx, Vy` (R97). In BASE the word is DXYN with N = 0 (R97), which the decoder never gives
as this instruction; the meaning follows the word (log 14). -/
def execDrw16 (x y : Reg) (s : State) : Result :=
  .next (if s.cfg.extOps then s.drawLarge x y else s.drawSmall x y 0)

end Sys2Proof.Machine
end

