-- ==== Sys2Proof/Machine/Flow.lean ====
section
/-! DEFINITION. The control-transfer instructions (40_flow.md R49 to R58). On entry PC already holds the address of the instruction plus 2 (30_encoding.md R39). -/

namespace Sys2Proof.Machine

/-- 00EE `RET` (R50): pop the last return address into PC; an empty stack halts the run. -/
def execRet (s : State) : Result :=
  match s.stk.getLast? with
  | some w => .next ((s.setStk s.stk.dropLast).setPc w)
  | none => .next s.raiseStackUnderflow

/-- 1NNN `JP nnn` (R51). -/
def execJp (nnn : BitVec 12) (s : State) : Result := .next (s.setPc (zextAddr nnn))

/-- 2NNN `CALL nnn` (R52): push PC, the address of this instruction plus 2, then jump. -/
def execCall (nnn : BitVec 12) (s : State) : Result :=
  .next ((s.push s.pc).setPc (zextAddr nnn))

/-- 3XNN `SE Vx, nn` (R53). -/
def execSeImm (x : Reg) (nn : Byte) (s : State) : Result :=
  .next (s.skipIf (decide (s.readV x = nn)))

/-- 4XNN `SNE Vx, nn` (R54). -/
def execSneImm (x : Reg) (nn : Byte) (s : State) : Result :=
  .next (s.skipIf (decide (s.readV x ≠ nn)))

/-- 5XY0 `SE Vx, Vy` (R55). -/
def execSeReg (x y : Reg) (s : State) : Result :=
  .next (s.skipIf (decide (s.readV x = s.readV y)))

/-- 9XY0 `SNE Vx, Vy` (R56). -/
def execSneReg (x y : Reg) (s : State) : Result :=
  .next (s.skipIf (decide (s.readV x ≠ s.readV y)))

/-- BNNN `JPO nnn` (R57): the sum is not reduced to 12 bits (decision D6). -/
def execJpo (nnn : BitVec 12) (s : State) : Result :=
  .next (s.setPc (zextAddr nnn + zextByte (s.jumpOffset nnn)))

/-- 00FD `EXIT` (R58): the normal end of a run. -/
def execExit (s : State) : Result := s.ifExt .exit s.haltExit

end Sys2Proof.Machine
end

