-- ==== Sys2Proof/Machine/Index.lean ====
section
/-! DEFINITION. The index register, the loads and the stores (42_index_memory.md R72 to R80). -/

namespace Sys2Proof.Machine

/-- ANNN `LDI nnn` (R72). -/
def execLdIdx (nnn : BitVec 12) (s : State) : Result := .next (s.setI (zextAddr nnn))

/-- FX1E `ADDI Vx` (R73): V[X] is read before VF is written. -/
def execAddIdx (x : Reg) (s : State) : Result :=
  .next ((s.setI (indexWord (s.i.toNat + (s.readV x).toNat))).writeIndexFlag
    (indexOverflow s.i (s.readV x)))

/-- FX29 `FONT Vx` (R74). -/
def execFont (x : Reg) (s : State) : Result := .next (s.setI (glyphLo (digitOf (s.readV x))))

/-- FX30 `FONTHI Vx` (R75): EXT only. -/
def execFonthi (x : Reg) (s : State) : Result :=
  s.ifExt (.fonthi x) (s.setI (glyphHi (digitOf (s.readV x))))

/-- FX33 `BCD Vx` (R76): hundreds, tens and ones at I, I + 1, I + 2. -/
def execBcd (x : Reg) (s : State) : Result :=
  .next (s.memWriteAll (s.ea 0)
    [BitVec.ofNat 8 ((s.readV x).toNat / 100), BitVec.ofNat 8 ((s.readV x).toNat / 10 % 10),
     BitVec.ofNat 8 ((s.readV x).toNat % 10)])

/-- FX55 `STM Vx` (R77): V0 to VX, inclusive. -/
def execStm (x : Reg) (s : State) : Result :=
  .next ((s.spill (x.val + 1)).advanceIndex (x.val + 1))

/-- FX65 `LDM Vx` (R78): V0 to VX, inclusive. -/
def execLdm (x : Reg) (s : State) : Result :=
  .next ((s.fill (x.val + 1)).advanceIndex (x.val + 1))

/-- FX75 `STF Vx` (R79): EXT only, and only for X at most 7; otherwise a decode error. -/
def execStf (x : Reg) (s : State) : Result :=
  if x.val ≤ 7 then s.ifExt (.stf x) (s.spillRpl (x.val + 1))
  else .next (s.raiseDecodeError (encode (.stf x)))

/-- FX85 `LDF Vx` (R80): EXT only, and only for X at most 7; otherwise a decode error. -/
def execLdf (x : Reg) (s : State) : Result :=
  if x.val ≤ 7 then s.ifExt (.ldf x) (s.fillRpl (x.val + 1))
  else .next (s.raiseDecodeError (encode (.ldf x)))

end Sys2Proof.Machine
end

