-- ==== Sys2Proof/Machine/Input.lean ====
section
/-! DEFINITION. The keypad and timer instructions, and the release poll (44_input_timers.md R99 to R107). -/

namespace Sys2Proof.Machine

/-- EX9E `SKP Vx` (R101): the levels are sampled once. -/
def execSkp (x : Reg) (s : State) : Result :=
  .next (s.sampledKeys.skipIf (keyDown s.keyLevels (digitOf (s.readV x))))

/-- EXA1 `SKNP Vx` (R102). -/
def execSknp (x : Reg) (s : State) : Result :=
  .next (s.sampledKeys.skipIf (!keyDown s.keyLevels (digitOf (s.readV x))))

/-- FX0A after the levels were sampled (R103): rewind when no key is down, else take the key and wait
for its release. -/
def State.awaitKey (s : State) (x : Reg) : Option (Fin 16) → State
  | none => s.rewindPc
  | some k => (s.writeV x (keyByte k)).setWait (.release k)

/-- FX0A `WKEY Vx` (R103): in both cases the step yields. -/
def execWkey (x : Reg) (s : State) : Result :=
  .next (s.sampledKeys.awaitKey x (currentKey s.keyLevels)).yieldStep

/-- `ReleasePoll(k)` (R104): still down, yield; up, the wait is over and the burst goes on. -/
def State.releasePoll (s : State) (k : Fin 16) : State :=
  if keyDown s.keyLevels k then s.sampledKeys.yieldStep else s.sampledKeys.setWait .none

/-- FX07 `GETDT Vx` (R105). -/
def execGetdt (x : Reg) (s : State) : Result := .next (s.writeV x s.dt)

/-- FX15 `SETDT Vx` (R106). -/
def execSetdt (x : Reg) (s : State) : Result := .next (s.setDt (s.readV x))

/-- FX18 `SETST Vx` (R107). -/
def execSetst (x : Reg) (s : State) : Result := .next (s.setSt (s.readV x))

end Sys2Proof.Machine
end

