-- ==== Sys2Proof/Machine/Dispatch.lean ====
section
/-! DEFINITION. The one table from instructions to meanings, in the order of spec/opcode_table.json. -/

namespace Sys2Proof.Machine

def exec (i : Instr) (s : State) : Host.Outcome State Fault Refusal :=
  match i with
  | .cls => Sys2Proof.Machine.execCls s
  | .ret => Sys2Proof.Machine.execRet s
  | .scd n => Sys2Proof.Machine.execScd n s
  | .scr => Sys2Proof.Machine.execScr s
  | .scl => Sys2Proof.Machine.execScl s
  | .exit => Sys2Proof.Machine.execExit s
  | .low => Sys2Proof.Machine.execLow s
  | .high => Sys2Proof.Machine.execHigh s
  | .jp nnn => Sys2Proof.Machine.execJp nnn s
  | .call nnn => Sys2Proof.Machine.execCall nnn s
  | .seImm x nn => Sys2Proof.Machine.execSeImm x nn s
  | .sneImm x nn => Sys2Proof.Machine.execSneImm x nn s
  | .seReg x y => Sys2Proof.Machine.execSeReg x y s
  | .ldImm x nn => Sys2Proof.Machine.execLdImm x nn s
  | .addImm x nn => Sys2Proof.Machine.execAddImm x nn s
  | .ldReg x y => Sys2Proof.Machine.execLdReg x y s
  | .orReg x y => Sys2Proof.Machine.execOrReg x y s
  | .andReg x y => Sys2Proof.Machine.execAndReg x y s
  | .xorReg x y => Sys2Proof.Machine.execXorReg x y s
  | .addReg x y => Sys2Proof.Machine.execAddReg x y s
  | .sub x y => Sys2Proof.Machine.execSub x y s
  | .shr x y => Sys2Proof.Machine.execShr x y s
  | .subn x y => Sys2Proof.Machine.execSubn x y s
  | .shl x y => Sys2Proof.Machine.execShl x y s
  | .sneReg x y => Sys2Proof.Machine.execSneReg x y s
  | .ldIdx nnn => Sys2Proof.Machine.execLdIdx nnn s
  | .jpo nnn => Sys2Proof.Machine.execJpo nnn s
  | .rnd x nn => Sys2Proof.Machine.execRnd x nn s
  | .drw x y n => Sys2Proof.Machine.execDrw x y n s
  | .drw16 x y => Sys2Proof.Machine.execDrw16 x y s
  | .skp x => Sys2Proof.Machine.execSkp x s
  | .sknp x => Sys2Proof.Machine.execSknp x s
  | .getdt x => Sys2Proof.Machine.execGetdt x s
  | .wkey x => Sys2Proof.Machine.execWkey x s
  | .setdt x => Sys2Proof.Machine.execSetdt x s
  | .setst x => Sys2Proof.Machine.execSetst x s
  | .addIdx x => Sys2Proof.Machine.execAddIdx x s
  | .font x => Sys2Proof.Machine.execFont x s
  | .fonthi x => Sys2Proof.Machine.execFonthi x s
  | .bcd x => Sys2Proof.Machine.execBcd x s
  | .stm x => Sys2Proof.Machine.execStm x s
  | .ldm x => Sys2Proof.Machine.execLdm x s
  | .stf x => Sys2Proof.Machine.execStf x s
  | .ldf x => Sys2Proof.Machine.execLdf x s

end Sys2Proof.Machine
end

