-- ==== Sys2Proof/Machine/Scheduler.lean ====
section
/-! DEFINITION. The instruction fetch (30_encoding.md R39) and the tick scheduler (60_exceptions.md R117 to R123), in the pieces that the step puts together (log 9). -/

namespace Sys2Proof.Machine

/-- The instruction word at PC: big-endian, both addresses reduced modulo 4096 (R30, R39). -/
def State.fetchWord (s : State) : Word :=
  bigEndian (s.memRead s.pc.toNat) (s.memRead (s.pc.toNat + 1))

/-- One timer at a tick: down by one, floor at zero (R117). -/
def timerDown (b : Byte) : Byte := if b = 0 then 0 else b - 1

/-- `TimerTick()` (R117). -/
def State.timerTick (s : State) : State := (s.setDt (timerDown s.dt)).setSt (timerDown s.st)

/-- The machine stands at a tick boundary: no step of the current tick has been taken (R27, R121). -/
def State.atBoundary (s : State) : Bool := decide (s.burst = 0)

/-- `STOP` is sampled, at a boundary only, and found asserted (R123). -/
def State.stopsNow (s : State) : Bool := s.atBoundary && s.stopLevel

/-- What a tick does before its first step: `STOP` was sampled low, the timers are decremented (R119). -/
def State.beginTick (s : State) : State := s.sampledStop.timerTick

/-- The state in which a step is taken: at a boundary the tick begins first; no yield is pending. -/
def State.enterStep (s : State) : State :=
  (if s.atBoundary then s.beginTick else s).setYielded false

/-- The step just taken is the last of its burst (R121): it yielded, or the budget is used up. -/
def State.endsBurst (s : State) : Bool := s.yielded || decide (s.cfg.ipt ≤ s.burst + 1)

/-- What follows a step (R119, R121): nothing if it halted the run; if it was the last of its burst,
the end of the tick with its `Present()` (R120), an output that no step reads; else the count goes up. -/
def State.finishStep (s : State) : State :=
  match s.run with
  | .halted _ _ _ => s
  | .running =>
    (s.setBurst (if s.endsBurst then 0 else s.burst + 1)).setPresents
      (if s.endsBurst then s.presents + 1 else s.presents)

/-- A word stored at PC, ready to be fetched by the very next step (log 13): the machine runs, waits for
no key, and the boundary that the next step may cross finds `STOP` low. -/
def State.placeWord (s : State) (op : Word) : State :=
  let t := ((s.memWriteAll s.pc.toNat (wordBytes op)).setWait .none).setRun .running
  if s.atBoundary then t.setStop ⟨false :: s.stop.script, s.stop.taken⟩ else t

end Sys2Proof.Machine
end

