-- ==== Sys2Proof/Machine/Step.lean ====
section
/-! DEFINITION. The step of the machine: the spec's Step() of 30_encoding.md R39 inside the tick scheduler of 60_exceptions.md R119 and R121. -/

namespace Sys2Proof.Machine

/-- The spec's `Step()` (R39): the release poll while waiting for a key, else fetch, advance PC by 2,
decode and execute; a word that no pattern matches raises the decode error. -/
def coreStep (s : State) : Host.Outcome State Fault Refusal :=
  match s.wait with
  | .release k => .next (s.releasePoll k)
  | .none =>
    match decodeWord s.cfg.variant s.fetchWord with
    | .ok i => exec i s.advancePc
    | .error _ => .next (s.advancePc.raiseDecodeError s.fetchWord)

/-- One step of the machine (log 9). A halted machine takes none (R39, R108). At a tick boundary `STOP`
is sampled first, and if it is asserted the run halts (R123); else the tick begins, the spec's Step()
runs, and the burst goes on or ends (R119, R121). -/
def step (s : State) : Host.Outcome State Fault Refusal :=
  match s.run with
  | .halted cause op pc => .fault (.halted cause op pc)
  | .running =>
    if s.stopsNow then .next s.sampledStop.haltStopped
    else onNext State.finishStep (coreStep s.enterStep)

/-- The state with an instruction word stored where the next step fetches it, numbered as
spec/opcode_table.json numbers its bits (log 13). -/
def State.withFetchWord (s : State) (nbits w : Nat) : State :=
  s.placeWord (BitVec.ofNat 16 (w % 2 ^ nbits))

end Sys2Proof.Machine
end

