-- ==== Sys2Proof/Machine/HostPort.lean ====
section
/-! DEFINITION. What the host does to the core and what it reads from it (60_exceptions.md R118, R124; 70_reset_and_hazards.md R128, R131; 10_state.md R24). -/

namespace Sys2Proof.Machine

/-- The most bytes a load accepts: 4096 - 0x200 (R131). -/
def maxRom : Nat := memSize - loadBase

/-- `Load(rom)` (R131): copy the bytes to 0x200 onward; a longer ROM is refused (decision D17). -/
def State.load (s : State) (rom : List Byte) : Result :=
  if rom.length ≤ maxRom then .next (s.memWriteAll loadBase rom)
  else .refused (.romTooLong rom.length)

/-- Reset asserted by the host at any time (R124, R128): nothing of the state survives but the
configuration; the inputs are the environment's and go on (log 13). -/
def State.hostReset (s : State) : State :=
  ((((State.resetWith s.cfg).setKeys s.keys).setStop s.stop).setRand s.rand)

/-- `SOUND_ON` (R118). -/
def State.soundOn (s : State) : Bool := decide (s.st ≠ 0)

/-- The halt report: the fields of `RUN` when halted (R24, R125). -/
def State.haltReport (s : State) : Option (HaltCause × Word × Word) :=
  match s.run with
  | .running => none
  | .halted cause op pc => some (cause, op, pc)

end Sys2Proof.Machine
end

