-- ==== Sys2Proof/Safety.lean ====
section
/-! DEFINITION. The terms that claims use: the canonical form of memory, the invariant of the machine, what a failed run is, and what it means that an instruction leaves a piece of state unchanged. -/

namespace Sys2Proof.Machine

/-- The addresses are strictly rising from `lo` on. -/
def Memory.risingFrom (lo : Nat) : Memory → Bool
  | [] => true
  | (a, _) :: m => decide (lo ≤ a) && Memory.risingFrom (a + 1) m

/-- The canonical form (log 15): addresses strictly rising and inside the 4096 cells, and no cell that
reads as the reset image does. -/
def Memory.wf (image : Nat → Byte) (m : Memory) : Bool :=
  Memory.risingFrom 0 m && m.all fun c => decide (c.1 < memSize) && decide (c.2 ≠ image c.1)

/-- Pixels outside the active region are dark (10_state.md R19). -/
def State.darkOutside (s : State) : Prop :=
  ∀ x y, s.width ≤ x ∨ s.height ≤ y → pixel s.fb x y = false

/-- The invariant of the machine: it holds at reset and every step keeps it. -/
structure State.Inv (s : State) : Prop where
  /-- Memory is in canonical form, so equal memories are equal data. -/
  memory : Memory.wf (resetByte s.cfg) s.mem = true
  /-- I is always in 0 to 4095 (10_state.md R14). -/
  index : s.i.toNat < memSize
  /-- The budget is at least 1 (00_scope.md R5), and a burst never reaches it (60_exceptions.md R121). -/
  burst : s.burst < s.cfg.ipt
  /-- Pixels outside the active region are 0 (10_state.md R19). -/
  dark : s.darkOutside
  /-- In BASE the display mode is the constant 0 (10_state.md R20). -/
  baseMode : s.cfg.extOps = false → s.hires = false
  /-- In BASE the RPL registers, which do not exist there (10_state.md R18), keep their reset value. -/
  baseRpl : s.cfg.extOps = false → s.rpl = Vector.replicate 8 0

/-- A failed run: halted on a decode error or a stack underflow, never a successful final state
(60_exceptions.md R108). -/
def State.failed (s : State) : Bool :=
  match s.run with
  | .running => false
  | .halted .decode _ _ => true
  | .halted .stackUnderflow _ _ => true
  | .halted .exit _ _ => false
  | .halted .stopped _ _ => false

/-- The run goes on: `RUN = RUNNING`. -/
def State.isRunning (s : State) : Bool := decide (s.run = .running)

/-- The pieces of state a frame speaks of, one for each field of `State`. -/
inductive Part where
  | cfg | mem | v | i | pc | stk | dt | st | rpl | fb | hires | wait | run
  | burst | yielded | presents | keys | stop | rand
  deriving DecidableEq, Repr

/-- One piece of state is the same before and after. Memory is compared by reading every byte. -/
def Part.same (s t : State) : Part → Prop
  | .cfg => t.cfg = s.cfg
  | .mem => ∀ a, t.memRead a = s.memRead a
  | .v => ∀ r, t.readV r = s.readV r
  | .i => t.i = s.i
  | .pc => t.pc = s.pc
  | .stk => t.stk = s.stk
  | .dt => t.dt = s.dt
  | .st => t.st = s.st
  | .rpl => ∀ k, t.readRpl k = s.readRpl k
  | .fb => t.fb = s.fb
  | .hires => t.hires = s.hires
  | .wait => t.wait = s.wait
  | .run => t.run = s.run
  | .burst => t.burst = s.burst
  | .yielded => t.yielded = s.yielded
  | .presents => t.presents = s.presents
  | .keys => t.keys = s.keys
  | .stop => t.stop = s.stop
  | .rand => t.rand = s.rand

/-- Nothing changes from `s` to `t` but the pieces of state listed. -/
def KeepsAllBut (changed : List Part) (s t : State) : Prop :=
  ∀ p, p ∉ changed → p.same s t

/-- Every general register but those listed holds what it held. -/
def KeepsRegsBut (changed : List Reg) (s t : State) : Prop :=
  ∀ r, r ∉ changed → t.readV r = s.readV r

/-- Every byte of memory reads as before, but at the cells that the listed addresses reduce to
(20_memory.md R29). -/
def KeepsBytesBut (stored : List Nat) (s t : State) : Prop :=
  ∀ a, (∀ d, d ∈ stored → a % memSize ≠ d % memSize) → t.memRead a = s.memRead a

/-- The instruction answers a next state, in which nothing has changed but the listed pieces of state,
and of which `post` holds. -/
def Runs (i : Instr) (s : State) (changed : List Part) (post : State → Prop) : Prop :=
  ∃ t, exec i s = .next t ∧ KeepsAllBut changed s t ∧ post t

/-- The instruction raises the decode error on a word: the halt is recorded with PC as it stands, and
nothing else changes (60_exceptions.md R109). -/
def RaisesDecodeError (i : Instr) (s : State) (op : Word) : Prop :=
  Runs i s [.run] fun t => t.run = .halted .decode op s.pc

/-- The pieces of state an instruction may change, in some variant and for some operands: what its rule
of 40_flow.md to 44_input_timers.md writes, and RUN where the rule can halt the run. -/
def mayChange : Instr → List Part
  | .cls => [.fb]
  | .ret => [.pc, .stk, .run]
  | .scd _ | .scr | .scl => [.fb, .run]
  | .exit => [.run]
  | .low | .high => [.fb, .hires, .run]
  | .jp _ | .jpo _ => [.pc]
  | .call _ => [.pc, .stk]
  | .seImm _ _ | .sneImm _ _ | .seReg _ _ | .sneReg _ _ => [.pc]
  | .ldImm _ _ | .addImm _ _ | .ldReg _ _ | .orReg _ _ | .andReg _ _ | .xorReg _ _ => [.v]
  | .addReg _ _ | .sub _ _ | .shr _ _ | .subn _ _ | .shl _ _ => [.v]
  | .rnd _ _ => [.v, .rand]
  | .ldIdx _ | .font _ => [.i]
  | .fonthi _ => [.i, .run]
  | .addIdx _ => [.i, .v]
  | .drw _ _ _ | .drw16 _ _ => [.fb, .v, .yielded]
  | .skp _ | .sknp _ => [.pc, .keys]
  | .wkey _ => [.pc, .v, .wait, .keys, .yielded]
  | .getdt _ => [.v]
  | .setdt _ => [.dt]
  | .setst _ => [.st]
  | .bcd _ => [.mem]
  | .stm _ => [.mem, .i]
  | .ldm _ => [.v, .i]
  | .stf _ => [.rpl, .run]
  | .ldf _ => [.v, .run]

end Sys2Proof.Machine
end

