-- ==== Sys2Proof/Certificates/Slice0/Obligations.lean ====
section
/-! DEFINITION. The statements for the provers. Each docstring names the rules of spec/ it formalises, and says where a clause rests on a decision (D<n>), a general-knowledge passage (G<n>) or a choice of the model (a log entry). Encodings are written out bit field by bit field from 30_encoding.md R40 to R43. -/

open Sys2Proof Sys2Proof.Machine

/-! ### Encoding -/

/-- A few words of every family decode to the instruction the spec writes beside them (R42, R43; the
nibbles of 8XY? and the timer opcodes by G1, G2). -/
def Obligations.SampleWordsDecode : Prop :=
  decodeWord .base 0x00EE#16 = .ok .ret ∧ decodeWord .base 0x1ABC#16 = .ok (.jp 0xABC#12) ∧
  decodeWord .base 0x8014#16 = .ok (.addReg 0 1) ∧ decodeWord .base 0x7120#16 = .ok (.addImm 1 0x20#8) ∧
  decodeWord .base 0xF255#16 = .ok (.stm 2) ∧ decodeWord .ext 0xF130#16 = .ok (.fonthi 1) ∧
  decodeWord .ext 0xD010#16 = .ok (.drw16 0 1) ∧ decodeWord .base 0xD010#16 = .ok (.drw 0 1 0) ∧
  decodeWord .ext 0x00C3#16 = .ok (.scd 3) ∧ decodeWord .base 0x00C3#16 = .error .extOnly ∧
  decodeWord .base 0xE39E#16 = .ok (.skp 3) ∧ decodeWord .base 0xF50A#16 = .ok (.wkey 5)

/-- Decode and encode agree: every instruction that is well formed in a variant is what the decoder of
that variant reads from the two bytes of its word in memory order, whatever follows them (R40 to R44). -/
def Obligations.DecodeOfEncodeIsTheInstruction : Prop :=
  ∀ (v : Variant) (i : Instr) (rest : List Byte), i.wf v = true →
    decode v (wordBytes (encode i) ++ rest) = .ok (i, rest)

/-- The other direction: whatever word the decoder reads an instruction from is the word of that
instruction, and the instruction is well formed. So no two words share an instruction and no bit of a
legal word is dropped (R41, R46). -/
def Obligations.EncodeOfDecodeIsTheWord : Prop :=
  ∀ (v : Variant) (op : Word) (i : Instr), decodeWord v op = .ok i → encode i = op ∧ i.wf v = true

/-- The illegal words are exactly those of R45, classes (a) to (g); exact matching of the literal digits
is decision D20 of the spec. -/
def Obligations.IllegalWordsAreExactlyTheListed : Prop :=
  ∀ (v : Variant) (op : Word),
    (∃ e, decodeWord v op = .error e) ↔
      -- (a)
      (field op 15 12 = 0 ∧ op ≠ 0x00E0#16 ∧ op ≠ 0x00EE#16 ∧
        ¬ (v = .ext ∧ (0x00C0 ≤ op.toNat ∧ op.toNat ≤ 0x00CF ∨ 0x00FB ≤ op.toNat ∧ op.toNat ≤ 0x00FF))) ∨
      -- (b)
      ((field op 15 12 = 0x5 ∨ field op 15 12 = 0x9) ∧ field op 3 0 ≠ 0) ∨
      -- (c)
      (field op 15 12 = 0x8 ∧ field op 3 0 ∈ [8, 9, 0xA, 0xB, 0xC, 0xD, 0xF]) ∨
      -- (d)
      (field op 15 12 = 0xE ∧ field op 7 0 ≠ 0x9E ∧ field op 7 0 ≠ 0xA1) ∨
      -- (e), with the extended-only words of (g)
      (field op 15 12 = 0xF ∧
        field op 7 0 ∉ [0x07, 0x0A, 0x15, 0x18, 0x1E, 0x29, 0x33, 0x55, 0x65] ∧
        ¬ (v = .ext ∧ field op 7 0 ∈ [0x30, 0x75, 0x85])) ∨
      -- (f)
      (v = .ext ∧ field op 15 12 = 0xF ∧ field op 7 0 ∈ [0x75, 0x85] ∧ 8 ≤ field op 11 8)

/-! ### The step -/

/-- A step runs the decoded instruction (R39): at a running state that waits for no key and does not
stop at its boundary, when the two bytes at PC, big-endian and each read modulo 4096, decode to an
instruction, the step is that instruction run with PC advanced by 2, between the start of the tick (if
one is due) and the bookkeeping of the burst. The reductions are decision D6; the placing of tick and
burst around the instruction is log 9. -/
def Obligations.StepRunsTheDecodedInstruction : Prop :=
  ∀ (s : State) (i : Instr), s.run = .running → s.wait = .none → s.stopsNow = false →
    decodeWord s.cfg.variant (s.memRead s.pc.toNat ++ s.memRead (s.pc.toNat + 1)) = .ok i →
    step s = onNext State.finishStep (exec i (s.enterStep.setPc (s.pc + 2)))

/-- An illegal word halts the run (R109): from any running state that waits for no key and does not stop
at its boundary, the step answers the state in which a step begins, with PC advanced by 2 past the word
and the halt recorded, and nothing else changed. That the record holds the advanced PC is decision D19. -/
def Obligations.IllegalWordHaltsPrecisely : Prop :=
  ∀ (s : State) (e : Illegal), s.run = .running → s.wait = .none → s.stopsNow = false →
    decodeWord s.cfg.variant s.fetchWord = .error e →
    ∃ t, step s = .next t ∧ t.pc = s.pc + 2 ∧
      t.run = .halted .decode s.fetchWord (s.pc + 2) ∧ KeepsAllBut [.pc, .run] s.enterStep t

/-- A halted machine takes no step (R39, R108): it answers its halt report, as the model's only fault
(log 12). A running machine always answers a next state, whatever it holds. -/
def Obligations.OnlyAHaltedMachineStops : Prop :=
  (∀ (s : State) (c : HaltCause) (op pc : Word), s.run = .halted c op pc →
    step s = .fault (.halted c op pc)) ∧
  (∀ s : State, s.run = .running → ∃ t, step s = .next t)

/-- A run halts for one of four reasons only, each where its rule says (R113; R109, R110, R58, R123): the
stop signal at a boundary; a word that does not decode; 00EE on an empty stack; 00FD in EXT. -/
def Obligations.EveryHaltHasItsCause : Prop :=
  ∀ (s t : State) (c : HaltCause) (op pc : Word), s.run = .running → step s = .next t →
    t.run = .halted c op pc →
    (c = .stopped ∧ s.stopsNow = true ∧ op = 0 ∧ pc = s.pc) ∨
    (s.stopsNow = false ∧ s.wait = .none ∧ op = s.fetchWord ∧ pc = s.pc + 2 ∧
      ((c = .decode ∧ ∃ e, decodeWord s.cfg.variant s.fetchWord = .error e) ∨
       (c = .stackUnderflow ∧ s.fetchWord = 0x00EE#16 ∧ s.stk = []) ∨
       (c = .exit ∧ s.fetchWord = 0x00FD#16 ∧ s.cfg.variant = .ext)))

/-- The stop signal (R123; its place at the boundary is decision D14): asserted at a tick boundary it
halts the run with the word field 0 and PC as it stands, and that tick does nothing else; between
boundaries it is not looked at. -/
def Obligations.StopIsSeenAtBoundariesOnly : Prop :=
  (∀ s : State, s.run = .running → s.burst = 0 → s.stopLevel = true →
    ∃ t, step s = .next t ∧ t.run = .halted .stopped 0 s.pc ∧ t.stop = s.stop.next ∧
      KeepsAllBut [.run, .stop] s t) ∧
  (∀ (s : State) (f : Feed Bool), s.burst ≠ 0 →
    step (s.setStop f) = onNext (fun t => t.setStop f) (step s))

/-- The timers at a tick (R117): a step that begins a tick runs its instruction with each timer that is
not zero down by one, independently, and a timer that is zero still zero; a step within a tick runs it
with the timers as they were. The rest is not R117: that STOP is sampled at the boundary before the
timers is decision D14, that its feed moves on by one is log 8, that the yield signal is cleared is log
10, and that a tick begins inside a step, where the count of the burst is 0, is log 9. -/
def Obligations.TimersTickOncePerTick : Prop :=
  ∀ s : State,
    (s.burst = 0 → s.enterStep.dt.toNat = s.dt.toNat - 1 ∧ s.enterStep.st.toNat = s.st.toNat - 1 ∧
      s.enterStep.stop = s.stop.next ∧ KeepsAllBut [.dt, .st, .stop, .yielded] s s.enterStep) ∧
    (s.burst ≠ 0 → KeepsAllBut [.yielded] s s.enterStep)

/-- The timers change only at tick boundaries, and by FX15 and FX18 (R17, R117, R136): across any step
that does not run one of the two, they hold what the boundary left. -/
def Obligations.TimersChangeOnlyAtBoundaries : Prop :=
  ∀ s t : State, step s = .next t → s.stopsNow = false →
    (∀ x, decodeWord s.cfg.variant s.fetchWord ≠ .ok (.setdt x)) →
    (∀ x, decodeWord s.cfg.variant s.fetchWord ≠ .ok (.setst x)) →
    t.dt.toNat = (if s.burst = 0 then s.dt.toNat - 1 else s.dt.toNat) ∧
    t.st.toNat = (if s.burst = 0 then s.st.toNat - 1 else s.st.toNat)

/-- Which steps yield (R122): those that execute a draw or FX0A, and a release poll that finds the key
still down; no other. Cases (b) and (c) of the rule are decision D15. -/
def Obligations.YieldsInExactlyThreeCases : Prop :=
  ∀ s t : State, s.yielded = false → coreStep s = .next t →
    (t.yielded = true ↔
      (∃ k, s.wait = .release k ∧ s.keyLevels.getLsbD k.val = true) ∨
      (s.wait = .none ∧ ∃ i, decodeWord s.cfg.variant s.fetchWord = .ok i ∧
        ((∃ x y n, i = .drw x y n) ∨ (∃ x y, i = .drw16 x y) ∨ (∃ x, i = .wkey x))))

/-- The end of a burst (R121, R120): a step that leaves the machine running ends the tick, with one
present pulse, if it yielded or used up the budget; otherwise the count goes up by one and nothing is
presented. A step that halts presents nothing (decision D27). -/
def Obligations.BurstEndsOnYieldOrBudget : Prop :=
  ∀ s u : State, s.run = .running → s.stopsNow = false → coreStep s.enterStep = .next u →
    ∃ t, step s = .next t ∧ KeepsAllBut [.burst, .presents] u t ∧
      (u.run = .running → (u.yielded = true ∨ s.cfg.ipt ≤ s.burst + 1) →
        t.burst = 0 ∧ t.presents = s.presents + 1) ∧
      (u.run = .running → ¬ (u.yielded = true ∨ s.cfg.ipt ≤ s.burst + 1) →
        t.burst = s.burst + 1 ∧ t.presents = s.presents) ∧
      (u.run ≠ .running → t.presents = s.presents)

/-- Every tick ends (R119, R121): from any running state within its budget, at most as many steps as
the budget has left reach either the next boundary, with exactly one present pulse on the way (R120), or
a halt, with none: that a halting tick has no pulse is decision D27. `IPT` is OPEN (decision D13): the
statement holds for every value. Steps and pulses are counted as logs 9 and 11 say. -/
def Obligations.EveryTickEndsWithinItsBudget : Prop :=
  ∀ s : State, s.run = .running → s.burst < s.cfg.ipt →
    ∃ k, 1 ≤ k ∧ k ≤ s.cfg.ipt - s.burst ∧ ∃ t, Host.Core.run Sys2Proof.core k s = .next t ∧
      ((t.run ≠ .running ∧ t.presents = s.presents) ∨
       (t.run = .running ∧ t.burst = 0 ∧ t.presents = s.presents + 1))

/-! ### Invariants -/

/-- The invariant of the machine holds after reset, for every configuration with a budget of at least 1,
the reset machine's own among them. -/
def Obligations.InvariantHoldsAtReset : Prop :=
  (∀ c : Config, c.wf = true → (State.resetWith c).Inv) ∧ State.reset.Inv

/-- Every step keeps the invariant: memory in canonical form, I below 4096 (R14), the burst within the
budget (R121), dark pixels outside the active region (R19), low resolution and untouched RPL registers in
BASE (R18, R20). -/
def Obligations.EveryStepKeepsTheInvariant : Prop :=
  ∀ s t : State, s.Inv → step s = .next t → t.Inv

/-- No step changes the configuration record (R5); the record is a field of State by log 1. -/
def Obligations.NoStepChangesTheConfiguration : Prop :=
  ∀ s t : State, step s = .next t → t.cfg = s.cfg

/-- Every instruction runs in every state, and changes only the pieces of state that its rule names: so
only FX33 and FX55 write memory (R11), only 2NNN and 00EE the stack (R16), only 00FE and 00FF the mode
(R20), only FX75 the RPL registers (R18), only FX0A the key wait, only the draws and FX0A the yield
signal, and so on down the table `mayChange`. -/
def Obligations.EveryInstructionChangesOnlyItsOwnState : Prop :=
  ∀ (i : Instr) (s : State), Runs i s (mayChange i) fun _ => True

/-- No instruction reads ST (R17, R107): with another value there, every instruction but FX18 does the
same, and FX18 overwrites it. -/
def Obligations.NoInstructionReadsTheSoundTimer : Prop :=
  ∀ (i : Instr) (s : State) (b : Byte),
    ((∀ x, i ≠ .setst x) → exec i (s.setSt b) = onNext (fun t => t.setSt b) (exec i s)) ∧
    ((∃ x, i = .setst x) → exec i (s.setSt b) = exec i s)

/-- In BASE the extended-only forms do not run (R44, R45 (g)): each raises the decode error on its own
word, the word does not decode, and nothing but RUN changes. What exec does with such a term is log 14. -/
def Obligations.ExtendedOnlyFormsHaltInBase : Prop :=
  ∀ (i : Instr) (s : State), s.cfg.variant = .base → i.wf .base = false → (∀ x y, i ≠ .drw16 x y) →
    decodeWord .base (encode i) = .error .extOnly ∧ RaisesDecodeError i s (encode i)

/-! ### Reset and load -/

/-- The state after reset (R128, R26), for every configuration: the values and the memory image that the
rules give. Those of I, STK, DT, ST, RPL, FB, HIRES and WAIT are decision D10, and that BASE holds no
high-resolution font is decision D11. -/
def Obligations.ResetStateIsAsTheRulesSay : Prop :=
  ∀ c : Config,
    (State.resetWith c).cfg = c ∧ (∀ r, (State.resetWith c).readV r = 0) ∧
    (State.resetWith c).i = 0 ∧ (State.resetWith c).pc = 0x200 ∧ (State.resetWith c).stk = [] ∧
    (State.resetWith c).dt = 0 ∧ (State.resetWith c).st = 0 ∧
    (∀ k, (State.resetWith c).readRpl k = 0) ∧ (∀ x y, pixel (State.resetWith c).fb x y = false) ∧
    (State.resetWith c).hires = false ∧ (State.resetWith c).wait = .none ∧
    (State.resetWith c).run = .running ∧ (State.resetWith c).burst = 0 ∧
    (∀ j : Fin 80, (State.resetWith c).memRead (0x050 + j.val) = c.fontLo[j.val]) ∧
    (∀ j : Fin 160, (State.resetWith c).memRead (0x0A0 + j.val) =
      if c.variant = .ext then c.fontHi[j.val] else 0) ∧
    (∀ a, a < 4096 → (a < 0x050 ∨ 0x140 ≤ a) → (State.resetWith c).memRead a = 0)

/-- A ROM that fits is copied to 0x200 onward and nothing else changes; a longer one is refused and no
state results (R131; the refusal is decision D17). -/
def Obligations.LoadCopiesTheRom : Prop :=
  ∀ (s : State) (rom : List Byte),
    (rom.length ≤ 3584 → ∃ t, s.load rom = .next t ∧ KeepsAllBut [.mem] s t ∧
      (∀ j, j < rom.length → t.memRead (0x200 + j) = rom.getD j 0) ∧
      (∀ a, a < 4096 → (a < 0x200 ∨ 0x200 + rom.length ≤ a) → t.memRead a = s.memRead a)) ∧
    (3584 < rom.length → s.load rom = .refused (.romTooLong rom.length))

/-- A store is seen by the next fetch, the lower-addressed byte as the high byte of the instruction (R30,
R38; the coherence is decision D24, the reduction of the address D5 and D6): after FX55, a fetch at the
cell of V[k] reads the word V[k] ++ V[k+1]. -/
def Obligations.StoredBytesAreFetchedBigEndian : Prop :=
  ∀ (s : State) (x k j : Reg), j.val = k.val + 1 → j ≤ x →
    Runs (.stm x) s [.mem, .i] fun t =>
      (t.setPc (BitVec.ofNat 16 (s.ea k.val % 4096))).fetchWord = s.readV k ++ s.readV j

/-! ### Control transfer (40_flow.md) -/

/-- 1NNN (R51). -/
def Obligations.JumpSetsThePc : Prop :=
  ∀ (nnn : BitVec 12) (s : State),
    (∀ v, decodeWord v (0x1#4 ++ nnn) = .ok (.jp nnn)) ∧
    Runs (.jp nnn) s [.pc] fun t => t.pc.toNat = nnn.toNat

/-- 2NNN (R52): the value pushed is PC, the address of the instruction plus 2. -/
def Obligations.CallPushesThePc : Prop :=
  ∀ (nnn : BitVec 12) (s : State),
    (∀ v, decodeWord v (0x2#4 ++ nnn) = .ok (.call nnn)) ∧
    Runs (.call nnn) s [.pc, .stk] fun t => t.stk = s.stk ++ [s.pc] ∧ t.pc.toNat = nnn.toNat

/-- 00EE on a stack that is not empty (R50). -/
def Obligations.ReturnPopsTheStack : Prop :=
  (∀ v, decodeWord v 0x00EE#16 = .ok .ret) ∧
  ∀ (s : State) (l : List Word) (w : Word), s.stk = l ++ [w] →
    Runs .ret s [.pc, .stk] fun t => t.stk = l ∧ t.pc = w

/-- 00EE on an empty stack (R50, R110) halts the run with its own cause and changes nothing else: the
spec's decision D8. -/
def Obligations.ReturnOnEmptyStackHalts : Prop :=
  ∀ s : State, s.stk = [] →
    Runs .ret s [.run] fun t => t.run = .halted .stackUnderflow 0x00EE#16 s.pc

/-- "`2NNN` then `00EE` restores PC to the instruction after the call" (R52, R50): whatever the
subroutine changed, if it returns with the stack as the call left it. -/
def Obligations.ReturnUndoesCall : Prop :=
  ∀ (nnn : BitVec 12) (s u : State),
    ∃ t, exec (.call nnn) s = .next t ∧
      (u.stk = t.stk → Runs .ret u [.pc, .stk] fun w => w.pc = s.pc ∧ w.stk = s.stk)

/-- 3XNN and 4XNN (R53, R54). That the further 2 is added modulo 65536 is decision D6 (R15, R39, log 16). -/
def Obligations.ImmediateSkips : Prop :=
  ∀ (x : Reg) (nn : Byte) (s : State),
    (∀ v, decodeWord v (0x3#4 ++ nibble x ++ nn) = .ok (.seImm x nn) ∧
      decodeWord v (0x4#4 ++ nibble x ++ nn) = .ok (.sneImm x nn)) ∧
    (Runs (.seImm x nn) s [.pc] fun t =>
      t.pc.toNat = if s.readV x = nn then (s.pc.toNat + 2) % 65536 else s.pc.toNat) ∧
    (Runs (.sneImm x nn) s [.pc] fun t =>
      t.pc.toNat = if s.readV x = nn then s.pc.toNat else (s.pc.toNat + 2) % 65536)

/-- 5XY0 and 9XY0 (R55, R56). That any other low nibble is a decode error is decision D20 (R45 (b), log
19); that the further 2 is added modulo 65536 is decision D6 (R15, R39, log 16). -/
def Obligations.RegisterSkips : Prop :=
  ∀ (x y : Reg) (s : State),
    (∀ v, decodeWord v (0x5#4 ++ nibble x ++ nibble y ++ 0x0#4) = .ok (.seReg x y) ∧
      decodeWord v (0x9#4 ++ nibble x ++ nibble y ++ 0x0#4) = .ok (.sneReg x y)) ∧
    (∀ v n, n ≠ 0x0#4 →
      decodeWord v (0x5#4 ++ nibble x ++ nibble y ++ n) = .error .lowNibble5 ∧
      decodeWord v (0x9#4 ++ nibble x ++ nibble y ++ n) = .error .lowNibble9) ∧
    (Runs (.seReg x y) s [.pc] fun t =>
      t.pc.toNat = if s.readV x = s.readV y then (s.pc.toNat + 2) % 65536 else s.pc.toNat) ∧
    (Runs (.sneReg x y) s [.pc] fun t =>
      t.pc.toNat = if s.readV x = s.readV y then s.pc.toNat else (s.pc.toNat + 2) % 65536)

/-- BNNN (R57): legacy adds V0, modern adds the register of the top digit; the sum is stored unreduced
(decision D6). -/
def Obligations.JumpWithOffset : Prop :=
  ∀ (nnn : BitVec 12) (x : Reg) (s : State), x.val = nnn.toNat / 256 →
    (∀ v, decodeWord v (0xB#4 ++ nnn) = .ok (.jpo nnn)) ∧
    Runs (.jpo nnn) s [.pc] fun t =>
      t.pc.toNat = nnn.toNat +
        (if s.cfg.variant = .base ∧ s.cfg.isOlder = true then s.readV 0 else s.readV x).toNat

/-- 00FD (R58): in EXT the normal end of a run, after which there is no step; in BASE a decode error
(R44, by inference of the spec). That a step of the halted machine answers a fault is log 12, and what
exec does in BASE with a term that the decoder never gives there is log 14. -/
def Obligations.ExitEndsTheRun : Prop :=
  decodeWord .ext 0x00FD#16 = .ok .exit ∧ decodeWord .base 0x00FD#16 = .error .extOnly ∧
  ∀ s : State,
    (s.cfg.variant = .ext → Runs .exit s [.run] fun t =>
      t.run = .halted .exit 0x00FD#16 s.pc ∧ step t = .fault (.halted .exit 0x00FD#16 s.pc)) ∧
    (s.cfg.variant = .base → RaisesDecodeError .exit s 0x00FD#16)

/-! ### Registers and arithmetic (41_alu.md) -/

/-- 6XNN (R60). -/
def Obligations.LoadImmediate : Prop :=
  ∀ (x : Reg) (nn : Byte) (s : State),
    (∀ v, decodeWord v (0x6#4 ++ nibble x ++ nn) = .ok (.ldImm x nn)) ∧
    Runs (.ldImm x nn) s [.v] fun t => t.readV x = nn ∧ KeepsRegsBut [x] s t

/-- 7XNN (R61): wraps modulo 256 and writes no flag. -/
def Obligations.AddImmediateWraps : Prop :=
  ∀ (x : Reg) (nn : Byte) (s : State),
    (∀ v, decodeWord v (0x7#4 ++ nibble x ++ nn) = .ok (.addImm x nn)) ∧
    Runs (.addImm x nn) s [.v] fun t =>
      (t.readV x).toNat = ((s.readV x).toNat + nn.toNat) % 256 ∧ KeepsRegsBut [x] s t

/-- 8XY0 (R62; the nibble by G1). -/
def Obligations.CopyRegister : Prop :=
  ∀ (x y : Reg) (s : State),
    (∀ v, decodeWord v (0x8#4 ++ nibble x ++ nibble y ++ 0x0#4) = .ok (.ldReg x y)) ∧
    Runs (.ldReg x y) s [.v] fun t => t.readV x = s.readV y ∧ KeepsRegsBut [x] s t

/-- The result of a logical instruction: V[X] gets the result, then VF is zeroed in BASE and left alone
in EXT. -/
def Sys2Proof.Machine.LogicResult (i : Instr) (x : Reg) (r : Byte) (s : State) : Prop :=
  Runs i s [.v] fun t => KeepsRegsBut [x, 15] s t ∧ (x ≠ 15 → t.readV x = r) ∧
    t.readV 15 = if s.cfg.variant = .base then 0 else if x = 15 then r else s.readV 15

/-- 8XY1, 8XY2, 8XY3 (R63, R64, R65; the nibbles by G1, the dependence on the variant alone by D1). -/
def Obligations.LogicalOperations : Prop :=
  ∀ (x y : Reg) (s : State),
    (∀ v, decodeWord v (0x8#4 ++ nibble x ++ nibble y ++ 0x1#4) = .ok (.orReg x y) ∧
      decodeWord v (0x8#4 ++ nibble x ++ nibble y ++ 0x2#4) = .ok (.andReg x y) ∧
      decodeWord v (0x8#4 ++ nibble x ++ nibble y ++ 0x3#4) = .ok (.xorReg x y)) ∧
    LogicResult (.orReg x y) x (s.readV x ||| s.readV y) s ∧
    LogicResult (.andReg x y) x (s.readV x &&& s.readV y) s ∧
    LogicResult (.xorReg x y) x (s.readV x ^^^ s.readV y) s

/-- The result of a flag-writing instruction: V[X] gets the result, then VF gets the flag, 1 or 0, which
is what VF holds when X = F; no other register changes. -/
def Sys2Proof.Machine.FlagResult (i : Instr) (x : Reg) (r : Nat) (flag : Prop) (s : State) : Prop :=
  Runs i s [.v] fun t => KeepsRegsBut [x, 15] s t ∧ (x ≠ 15 → (t.readV x).toNat = r) ∧
    (flag → t.readV 15 = 1) ∧ (¬ flag → t.readV 15 = 0)

/-- 8XY4 (R66; the nibble by G1, the order of result and flag by D2). -/
def Obligations.AddSetsTheCarry : Prop :=
  ∀ (x y : Reg) (s : State),
    (∀ v, decodeWord v (0x8#4 ++ nibble x ++ nibble y ++ 0x4#4) = .ok (.addReg x y)) ∧
    FlagResult (.addReg x y) x (((s.readV x).toNat + (s.readV y).toNat) % 256)
      (255 < (s.readV x).toNat + (s.readV y).toNat) s

/-- 8XY5 and 8XY7 (R67, R69; the nibbles by G1, the order of result and flag by D2): VF is the inverse of
the borrow. -/
def Obligations.SubtractSetsNoBorrow : Prop :=
  ∀ (x y : Reg) (s : State),
    (∀ v, decodeWord v (0x8#4 ++ nibble x ++ nibble y ++ 0x5#4) = .ok (.sub x y) ∧
      decodeWord v (0x8#4 ++ nibble x ++ nibble y ++ 0x7#4) = .ok (.subn x y)) ∧
    FlagResult (.sub x y) x ((256 + (s.readV x).toNat - (s.readV y).toNat) % 256)
      ((s.readV y).toNat ≤ (s.readV x).toNat) s ∧
    FlagResult (.subn x y) x ((256 + (s.readV y).toNat - (s.readV x).toNat) % 256)
      ((s.readV x).toNat ≤ (s.readV y).toNat) s

/-- 8XY6 and 8XYE (R68, R70): the source is V[Y] in the legacy machine and V[X] otherwise, VF is the bit
shifted out. That the operands are read first and the flag is written last, so that it survives in VF
when X = F, is decision D2 (R59, log 17). -/
def Obligations.ShiftsTakeTheirBitOut : Prop :=
  ∀ (x y : Reg) (s : State) (src : Byte),
    src = (if s.cfg.variant = .base ∧ s.cfg.isOlder = true then s.readV y else s.readV x) →
    (∀ v, decodeWord v (0x8#4 ++ nibble x ++ nibble y ++ 0x6#4) = .ok (.shr x y) ∧
      decodeWord v (0x8#4 ++ nibble x ++ nibble y ++ 0xE#4) = .ok (.shl x y)) ∧
    FlagResult (.shr x y) x (src.toNat / 2) (src.toNat % 2 = 1) s ∧
    FlagResult (.shl x y) x (src.toNat * 2 % 256) (128 ≤ src.toNat) s

/-- CXNN (R71): the byte drawn, masked; the draw is an input under no law (decision D16), answered by the
feed (log 6). Whatever byte the environment answers is the one used. -/
def Obligations.RandomByteIsMasked : Prop :=
  ∀ (x : Reg) (nn : Byte) (s : State),
    (∀ v, decodeWord v (0xC#4 ++ nibble x ++ nn) = .ok (.rnd x nn)) ∧
    (Runs (.rnd x nn) s [.v, .rand] fun t =>
      t.readV x = s.drawnByte &&& nn ∧ KeepsRegsBut [x] s t ∧ t.rand = s.rand.next) ∧
    (∀ (b : Byte) (l : List Byte) (n : Nat),
      Runs (.rnd x nn) (s.setRand ⟨b :: l, n⟩) [.v, .rand] fun t =>
        t.readV x = b &&& nn ∧ t.rand = ⟨l, n + 1⟩)

/-! ### Index register, loads and stores (42_index_memory.md) -/

/-- ANNN (R72). -/
def Obligations.LoadIndex : Prop :=
  ∀ (nnn : BitVec 12) (s : State),
    (∀ v, decodeWord v (0xA#4 ++ nnn) = .ok (.ldIdx nnn)) ∧
    Runs (.ldIdx nnn) s [.i] fun t => t.i.toNat = nnn.toNat

/-- FX1E (R73): VF is 1 past 0xFFF; otherwise as `FX1E_VF_ELSE` says, which the spec leaves OPEN (D3): the
statement holds for both values. -/
def Obligations.AddToIndexWraps : Prop :=
  ∀ (x : Reg) (s : State),
    (∀ v, decodeWord v (0xF#4 ++ nibble x ++ 0x1E#8) = .ok (.addIdx x)) ∧
    Runs (.addIdx x) s [.i, .v] fun t =>
      t.i.toNat = (s.i.toNat + (s.readV x).toNat) % 4096 ∧ KeepsRegsBut [15] s t ∧
      (0xFFF < s.i.toNat + (s.readV x).toNat → t.readV 15 = 1) ∧
      (s.i.toNat + (s.readV x).toNat ≤ 0xFFF → s.cfg.fx1eVfElse = .clear → t.readV 15 = 0) ∧
      (s.i.toNat + (s.readV x).toNat ≤ 0xFFF → s.cfg.fx1eVfElse = .keep → t.readV 15 = s.readV 15)

/-- FX29 and FX30 (R74, R75): the glyph address of the digit, the low four bits of V[X] (decision D7);
FX30 in EXT only (in BASE by R44, and on exec by log 14). -/
def Obligations.GlyphAddresses : Prop :=
  ∀ (x : Reg) (s : State),
    (∀ v, decodeWord v (0xF#4 ++ nibble x ++ 0x29#8) = .ok (.font x)) ∧
    decodeWord .ext (0xF#4 ++ nibble x ++ 0x30#8) = .ok (.fonthi x) ∧
    (Runs (.font x) s [.i] fun t => t.i.toNat = 0x50 + 5 * ((s.readV x).toNat % 16)) ∧
    (s.cfg.variant = .ext →
      Runs (.fonthi x) s [.i] fun t => t.i.toNat = 0xA0 + 10 * ((s.readV x).toNat % 16)) ∧
    (s.cfg.variant = .base → RaisesDecodeError (.fonthi x) s (0xF#4 ++ nibble x ++ 0x30#8))

/-- FX33 (R76): hundreds, tens and ones at I, I + 1, I + 2, modulo 4096 (decision D5; the order of the
digits by G5); every other byte reads as before. -/
def Obligations.BcdStoresThreeDigits : Prop :=
  ∀ (x : Reg) (s : State),
    (∀ v, decodeWord v (0xF#4 ++ nibble x ++ 0x33#8) = .ok (.bcd x)) ∧
    Runs (.bcd x) s [.mem] fun t =>
      (t.memRead (s.ea 0)).toNat = (s.readV x).toNat / 100 ∧
      (t.memRead (s.ea 1)).toNat = (s.readV x).toNat / 10 % 10 ∧
      (t.memRead (s.ea 2)).toNat = (s.readV x).toNat % 10 ∧
      KeepsBytesBut [s.ea 0, s.ea 1, s.ea 2] s t

/-- FX55 (R77): V0 to VX at I on, modulo 4096 (decision D5), and I advanced in the legacy machine only
(decision D22); every other byte reads as before. -/
def Obligations.SpillStoresTheRegisters : Prop :=
  ∀ (x : Reg) (s : State),
    (∀ v, decodeWord v (0xF#4 ++ nibble x ++ 0x55#8) = .ok (.stm x)) ∧
    Runs (.stm x) s [.mem, .i] fun t =>
      (∀ k : Reg, k ≤ x → t.memRead (s.ea k.val) = s.readV k) ∧
      KeepsBytesBut ((List.range (x.val + 1)).map s.ea) s t ∧
      t.i.toNat = if s.cfg.variant = .base ∧ s.cfg.isOlder = true
        then (s.i.toNat + x.val + 1) % 4096 else s.i.toNat

/-- FX65 (R78): V0 to VX from the bytes at I on, modulo 4096 (decision D5), and I advanced in the legacy
machine only (decision D22). -/
def Obligations.FillLoadsTheRegisters : Prop :=
  ∀ (x : Reg) (s : State),
    (∀ v, decodeWord v (0xF#4 ++ nibble x ++ 0x65#8) = .ok (.ldm x)) ∧
    Runs (.ldm x) s [.v, .i] fun t =>
      (∀ k : Reg, k ≤ x → t.readV k = s.memRead (s.ea k.val)) ∧
      (∀ k : Reg, x < k → t.readV k = s.readV k) ∧
      t.i.toNat = if s.cfg.variant = .base ∧ s.cfg.isOlder = true
        then (s.i.toNat + x.val + 1) % 4096 else s.i.toNat

/-- FX75 and FX85 (R79, R80): in EXT with X at most 7, V0 to VX to or from RPL 0 to X, inclusive (decision
D23); in BASE, or with X above 7, a decode error with no register or flag changed (on exec by log 14). -/
def Obligations.RplSpillAndFill : Prop :=
  ∀ (x : Reg) (s : State),
    (s.cfg.variant = .ext → x.val ≤ 7 →
      decodeWord .ext (0xF#4 ++ nibble x ++ 0x75#8) = .ok (.stf x) ∧
      decodeWord .ext (0xF#4 ++ nibble x ++ 0x85#8) = .ok (.ldf x) ∧
      (Runs (.stf x) s [.rpl] fun t =>
        ∀ (k : Fin 8) (r : Reg), r.val = k.val → t.readRpl k = if r ≤ x then s.readV r else s.readRpl k) ∧
      (Runs (.ldf x) s [.v] fun t =>
        (∀ (k : Fin 8) (r : Reg), r.val = k.val → r ≤ x → t.readV r = s.readRpl k) ∧
        (∀ r : Reg, x < r → t.readV r = s.readV r))) ∧
    (s.cfg.variant = .base ∨ 8 ≤ x.val →
      (∃ e, decodeWord s.cfg.variant (0xF#4 ++ nibble x ++ 0x75#8) = .error e) ∧
      (∃ e, decodeWord s.cfg.variant (0xF#4 ++ nibble x ++ 0x85#8) = .error e) ∧
      RaisesDecodeError (.stf x) s (0xF#4 ++ nibble x ++ 0x75#8) ∧
      RaisesDecodeError (.ldf x) s (0xF#4 ++ nibble x ++ 0x85#8))

/-! ### Display (43_display.md) -/

/-- 00E0 (R90, R83): every pixel dark; the mode, VF and the burst are left alone. -/
def Obligations.ClearDarkensEveryPixel : Prop :=
  (∀ v, decodeWord v 0x00E0#16 = .ok .cls) ∧
  ∀ s : State, Runs .cls s [.fb] fun t => ∀ x y, pixel t.fb x y = false

/-- 00CN (R91, R84): in EXT the picture moves down by N rows of the active region; what enters is dark and
what leaves is discarded (decision D9); in BASE a decode error (R44, and on exec by log 14). -/
def Obligations.ScrollDownMovesRows : Prop :=
  ∀ (n : Fin 16) (s : State),
    decodeWord .ext (0x00C#12 ++ nibble n) = .ok (.scd n) ∧
    (s.cfg.variant = .ext → Runs (.scd n) s [.fb] fun t =>
      ∀ x y, pixel t.fb x y =
        if x < s.width ∧ y < s.height then (if y < n.val then false else pixel s.fb x (y - n.val))
        else pixel s.fb x y) ∧
    (s.cfg.variant = .base → RaisesDecodeError (.scd n) s (0x00C#12 ++ nibble n))

/-- 00FB and 00FC (R92, R93, R85, R86): in EXT the picture moves right or left by 4 columns of the active
region; what enters is dark and what leaves is discarded (decision D9); in BASE a decode error (R44, and on exec
by log 14). -/
def Obligations.SidewaysScrollsMoveColumns : Prop :=
  decodeWord .ext 0x00FB#16 = .ok .scr ∧ decodeWord .ext 0x00FC#16 = .ok .scl ∧
  ∀ s : State,
    (s.cfg.variant = .ext → Runs .scr s [.fb] fun t =>
      ∀ x y, pixel t.fb x y =
        if x < s.width ∧ y < s.height then (if x < 4 then false else pixel s.fb (x - 4) y)
        else pixel s.fb x y) ∧
    (s.cfg.variant = .ext → Runs .scl s [.fb] fun t =>
      ∀ x y, pixel t.fb x y =
        if x < s.width ∧ y < s.height then (if x + 4 < s.width then pixel s.fb (x + 4) y else false)
        else pixel s.fb x y) ∧
    (s.cfg.variant = .base → RaisesDecodeError .scr s 0x00FB#16 ∧ RaisesDecodeError .scl s 0x00FC#16)

/-- 00FE and 00FF (R94, R95): in EXT the mode is set and the screen cleared, also when the mode is the
current one (R87, by inference of the spec); W and H follow (R81); in BASE a decode error (R44, by
inference of the spec), which exec raises on a term that the decoder never gives there (log 14). -/
def Obligations.ResolutionSwitchClears : Prop :=
  decodeWord .ext 0x00FE#16 = .ok .low ∧ decodeWord .ext 0x00FF#16 = .ok .high ∧
  ∀ s : State,
    (s.cfg.variant = .ext → Runs .low s [.fb, .hires] fun t =>
      t.hires = false ∧ t.width = 64 ∧ t.height = 32 ∧ ∀ x y, pixel t.fb x y = false) ∧
    (s.cfg.variant = .ext → Runs .high s [.fb, .hires] fun t =>
      t.hires = true ∧ t.width = 128 ∧ t.height = 64 ∧ ∀ x y, pixel t.fb x y = false) ∧
    (s.cfg.variant = .base → RaisesDecodeError .low s 0x00FE#16 ∧ RaisesDecodeError .high s 0x00FF#16)

/-- What a draw does to the screen and to VF: exactly the listed pixels change, and VF is 1 when one of
them was lit and 0 otherwise; no other register changes, and the step yields. -/
def Sys2Proof.Machine.DrawResult (i : Instr) (s : State) (flips : Nat → Nat → Prop) : Prop :=
  Runs i s [.fb, .v, .yielded] fun t =>
    KeepsRegsBut [15] s t ∧ t.yielded = true ∧
    (∀ a b, pixel t.fb a b ≠ pixel s.fb a b ↔ flips a b) ∧
    ((∃ a b, flips a b ∧ pixel s.fb a b = true) → t.readV 15 = 1) ∧
    ((¬ ∃ a b, flips a b ∧ pixel s.fb a b = true) → t.readV 15 = 0)

/-- DXYN (R96; VF 0 without a collision by D4, the bit order by D21): the pixels that change are those of
the 1 bits of the N bytes at I on, 8 to a row, from the origin taken modulo the active size; rows past the
bottom edge and columns past the right edge are dropped. In BASE for every N, in EXT for N from 1. -/
def Obligations.DrawFlipsTheSpriteBits : Prop :=
  ∀ (x y : Reg) (n : Fin 16) (s : State), ¬ (s.cfg.variant = .ext ∧ n = 0) →
    decodeWord s.cfg.variant (0xD#4 ++ nibble x ++ nibble y ++ nibble n) = .ok (.drw x y n) ∧
    DrawResult (.drw x y n) s fun a b =>
      ∃ r c, r < n.val ∧ c < 8 ∧ a < s.width ∧ b < s.height ∧
        a = (s.readV x).toNat % s.width + c ∧ b = (s.readV y).toNat % s.height + r ∧
        (s.memRead (s.ea r)).getLsbD (7 - c) = true

/-- DXY0 (R97; the halves and the bit order by D21): in EXT the 16 by 16 sprite of the 32 bytes at I on,
columns wrapping around the active width, rows clipped at the bottom; in BASE the word is DXYN with N = 0,
which draws nothing, clears VF and yields. -/
def Obligations.LargeDrawFlipsTheSpriteBits : Prop :=
  ∀ (x y : Reg) (s : State),
    decodeWord .ext (0xD#4 ++ nibble x ++ nibble y ++ 0x0#4) = .ok (.drw16 x y) ∧
    decodeWord .base (0xD#4 ++ nibble x ++ nibble y ++ 0x0#4) = .ok (.drw x y 0) ∧
    (s.cfg.variant = .ext → DrawResult (.drw16 x y) s fun a b =>
      ∃ r c, r < 16 ∧ c < 16 ∧ b < s.height ∧
        a = ((s.readV x).toNat % s.width + c) % s.width ∧ b = (s.readV y).toNat % s.height + r ∧
        (if c < 8 then (s.memRead (s.ea (2 * r))).getLsbD (7 - c)
          else (s.memRead (s.ea (2 * r + 1))).getLsbD (15 - c)) = true) ∧
    (s.cfg.variant = .base → DrawResult (.drw x y 0) s fun _ _ => False)

/-- Drawing the same sprite twice at the same origin restores the screen, and from a blank screen sets VF
on the second draw if the first lit a pixel (R96; R97 for N = 0 in EXT, where the term follows its word,
log 14). The origin must not be read from VF, which the first draw writes. -/
def Obligations.DrawingTwiceRestoresTheScreen : Prop :=
  ∀ (x y : Reg) (n : Fin 16) (s : State), x ≠ 15 → y ≠ 15 →
    ∃ t u, exec (.drw x y n) s = .next t ∧ exec (.drw x y n) t = .next u ∧ u.fb = s.fb ∧
      (s.fb = blankScreen → t.fb ≠ blankScreen → t.readV 15 = 0 ∧ u.readV 15 = 1)

/-! ### Keypad and timers (44_input_timers.md) -/

/-- `CurrentKey()` answers the lowest-numbered key that is down, or none when every key is up (R100). -/
def Obligations.CurrentKeyIsTheLowest : Prop :=
  ∀ levels : BitVec 16,
    (∀ k : Fin 16, currentKey levels = some k ↔
      levels.getLsbD k.val = true ∧ ∀ j : Fin 16, j < k → levels.getLsbD j.val = false) ∧
    (currentKey levels = none ↔ levels = 0)

/-- EX9E and EXA1 (R101, R102): the levels are sampled once, and the key is the low four bits of V[X]
(decision D7); the further 2 is added modulo 65536 (decision D6). -/
def Obligations.KeySkips : Prop :=
  ∀ (x : Reg) (s : State),
    (∀ v, decodeWord v (0xE#4 ++ nibble x ++ 0x9E#8) = .ok (.skp x) ∧
      decodeWord v (0xE#4 ++ nibble x ++ 0xA1#8) = .ok (.sknp x)) ∧
    (Runs (.skp x) s [.pc, .keys] fun t => t.keys = s.keys.next ∧
      t.pc = if s.keyLevels.getLsbD ((s.readV x).toNat % 16) = true then s.pc + 2 else s.pc) ∧
    (Runs (.sknp x) s [.pc, .keys] fun t => t.keys = s.keys.next ∧
      t.pc = if s.keyLevels.getLsbD ((s.readV x).toNat % 16) = true then s.pc else s.pc + 2)

/-- FX0A (R103; that it ends its burst by D15): with no key down PC is rewound and nothing is taken; else
the lowest key goes to V[X] and its release is awaited. In both cases the step yields. PC wraps
modulo 65536 (decision D6). -/
def Obligations.WaitKeyRewindsOrTakesTheKey : Prop :=
  ∀ (x : Reg) (s : State),
    (∀ v, decodeWord v (0xF#4 ++ nibble x ++ 0x0A#8) = .ok (.wkey x)) ∧
    (s.keyLevels = 0 → Runs (.wkey x) s [.pc, .keys, .yielded] fun t =>
      t.pc.toNat = (s.pc.toNat + 65534) % 65536 ∧ t.keys = s.keys.next ∧ t.yielded = true) ∧
    (∀ k : Fin 16, s.keyLevels.getLsbD k.val = true →
      (∀ j : Fin 16, j < k → s.keyLevels.getLsbD j.val = false) →
      Runs (.wkey x) s [.v, .wait, .keys, .yielded] fun t =>
        (t.readV x).toNat = k.val ∧ KeepsRegsBut [x] s t ∧ t.wait = .release k ∧
        t.keys = s.keys.next ∧ t.yielded = true)

/-- The release poll (R104, decision D15): nothing is fetched and PC does not move; only key k is looked
at; still down, the step yields and nothing else changes; up, the wait ends and the burst goes on. -/
def Obligations.ReleasePollWaitsForItsKey : Prop :=
  ∀ (s : State) (k : Fin 16), s.wait = .release k →
    (s.keyLevels.getLsbD k.val = true →
      ∃ t, coreStep s = .next t ∧ t.yielded = true ∧ t.keys = s.keys.next ∧
        KeepsAllBut [.keys, .yielded] s t) ∧
    (s.keyLevels.getLsbD k.val = false →
      ∃ t, coreStep s = .next t ∧ t.wait = .none ∧ t.keys = s.keys.next ∧
        KeepsAllBut [.keys, .wait] s t)

/-- FX07, FX15 and FX18 (R105, R106, R107; which opcode does what by G2), and the sound output (R118):
`SOUND_ON` is 1 exactly while ST is not 0. -/
def Obligations.TimerReadsAndWrites : Prop :=
  ∀ (x : Reg) (s : State),
    (∀ v, decodeWord v (0xF#4 ++ nibble x ++ 0x07#8) = .ok (.getdt x) ∧
      decodeWord v (0xF#4 ++ nibble x ++ 0x15#8) = .ok (.setdt x) ∧
      decodeWord v (0xF#4 ++ nibble x ++ 0x18#8) = .ok (.setst x)) ∧
    (Runs (.getdt x) s [.v] fun t => t.readV x = s.dt ∧ KeepsRegsBut [x] s t) ∧
    (Runs (.setdt x) s [.dt] fun t => t.dt = s.readV x) ∧
    (Runs (.setst x) s [.st] fun t => t.st = s.readV x ∧ (t.soundOn = true ↔ s.readV x ≠ 0))
end

