-- ==== Sys2Proof/Laws/State.lean ====
section
/-! SUPPORT. One lemma per field per update, and per accessor per update that does not touch it, each true by rfl and tagged for simp, so that no later proof unfolds a record update. -/

namespace Sys2Proof.Machine

section
variable (s : State) (x : Reg) (b : Byte)

@[simp] theorem writeV_cfg : (s.writeV x b).cfg = s.cfg := rfl
@[simp] theorem writeV_mem : (s.writeV x b).mem = s.mem := rfl
@[simp] theorem writeV_v : (s.writeV x b).v = s.v.set x.val b x.isLt := rfl
@[simp] theorem writeV_i : (s.writeV x b).i = s.i := rfl
@[simp] theorem writeV_pc : (s.writeV x b).pc = s.pc := rfl
@[simp] theorem writeV_stk : (s.writeV x b).stk = s.stk := rfl
@[simp] theorem writeV_dt : (s.writeV x b).dt = s.dt := rfl
@[simp] theorem writeV_st : (s.writeV x b).st = s.st := rfl
@[simp] theorem writeV_rpl : (s.writeV x b).rpl = s.rpl := rfl
@[simp] theorem writeV_fb : (s.writeV x b).fb = s.fb := rfl
@[simp] theorem writeV_hires : (s.writeV x b).hires = s.hires := rfl
@[simp] theorem writeV_wait : (s.writeV x b).wait = s.wait := rfl
@[simp] theorem writeV_run : (s.writeV x b).run = s.run := rfl
@[simp] theorem writeV_burst : (s.writeV x b).burst = s.burst := rfl
@[simp] theorem writeV_yielded : (s.writeV x b).yielded = s.yielded := rfl
@[simp] theorem writeV_presents : (s.writeV x b).presents = s.presents := rfl
@[simp] theorem writeV_keys : (s.writeV x b).keys = s.keys := rfl
@[simp] theorem writeV_stop : (s.writeV x b).stop = s.stop := rfl
@[simp] theorem writeV_rand : (s.writeV x b).rand = s.rand := rfl
@[simp] theorem writeV_readRpl (j : Fin 8) : (s.writeV x b).readRpl j = s.readRpl j := rfl
@[simp] theorem writeV_memRead (c : Nat) : (s.writeV x b).memRead c = s.memRead c := rfl

end

section
variable (s : State) (k : Fin 8) (b : Byte)

@[simp] theorem writeRpl_cfg : (s.writeRpl k b).cfg = s.cfg := rfl
@[simp] theorem writeRpl_mem : (s.writeRpl k b).mem = s.mem := rfl
@[simp] theorem writeRpl_v : (s.writeRpl k b).v = s.v := rfl
@[simp] theorem writeRpl_i : (s.writeRpl k b).i = s.i := rfl
@[simp] theorem writeRpl_pc : (s.writeRpl k b).pc = s.pc := rfl
@[simp] theorem writeRpl_stk : (s.writeRpl k b).stk = s.stk := rfl
@[simp] theorem writeRpl_dt : (s.writeRpl k b).dt = s.dt := rfl
@[simp] theorem writeRpl_st : (s.writeRpl k b).st = s.st := rfl
@[simp] theorem writeRpl_rpl : (s.writeRpl k b).rpl = s.rpl.set k.val b k.isLt := rfl
@[simp] theorem writeRpl_fb : (s.writeRpl k b).fb = s.fb := rfl
@[simp] theorem writeRpl_hires : (s.writeRpl k b).hires = s.hires := rfl
@[simp] theorem writeRpl_wait : (s.writeRpl k b).wait = s.wait := rfl
@[simp] theorem writeRpl_run : (s.writeRpl k b).run = s.run := rfl
@[simp] theorem writeRpl_burst : (s.writeRpl k b).burst = s.burst := rfl
@[simp] theorem writeRpl_yielded : (s.writeRpl k b).yielded = s.yielded := rfl
@[simp] theorem writeRpl_presents : (s.writeRpl k b).presents = s.presents := rfl
@[simp] theorem writeRpl_keys : (s.writeRpl k b).keys = s.keys := rfl
@[simp] theorem writeRpl_stop : (s.writeRpl k b).stop = s.stop := rfl
@[simp] theorem writeRpl_rand : (s.writeRpl k b).rand = s.rand := rfl
@[simp] theorem writeRpl_readV (y : Reg) : (s.writeRpl k b).readV y = s.readV y := rfl
@[simp] theorem writeRpl_memRead (c : Nat) : (s.writeRpl k b).memRead c = s.memRead c := rfl

end

section
variable (s : State) (m : Memory)

@[simp] theorem setMem_cfg : (s.setMem m).cfg = s.cfg := rfl
@[simp] theorem setMem_mem : (s.setMem m).mem = m := rfl
@[simp] theorem setMem_v : (s.setMem m).v = s.v := rfl
@[simp] theorem setMem_i : (s.setMem m).i = s.i := rfl
@[simp] theorem setMem_pc : (s.setMem m).pc = s.pc := rfl
@[simp] theorem setMem_stk : (s.setMem m).stk = s.stk := rfl
@[simp] theorem setMem_dt : (s.setMem m).dt = s.dt := rfl
@[simp] theorem setMem_st : (s.setMem m).st = s.st := rfl
@[simp] theorem setMem_rpl : (s.setMem m).rpl = s.rpl := rfl
@[simp] theorem setMem_fb : (s.setMem m).fb = s.fb := rfl
@[simp] theorem setMem_hires : (s.setMem m).hires = s.hires := rfl
@[simp] theorem setMem_wait : (s.setMem m).wait = s.wait := rfl
@[simp] theorem setMem_run : (s.setMem m).run = s.run := rfl
@[simp] theorem setMem_burst : (s.setMem m).burst = s.burst := rfl
@[simp] theorem setMem_yielded : (s.setMem m).yielded = s.yielded := rfl
@[simp] theorem setMem_presents : (s.setMem m).presents = s.presents := rfl
@[simp] theorem setMem_keys : (s.setMem m).keys = s.keys := rfl
@[simp] theorem setMem_stop : (s.setMem m).stop = s.stop := rfl
@[simp] theorem setMem_rand : (s.setMem m).rand = s.rand := rfl
@[simp] theorem setMem_readV (y : Reg) : (s.setMem m).readV y = s.readV y := rfl
@[simp] theorem setMem_readRpl (j : Fin 8) : (s.setMem m).readRpl j = s.readRpl j := rfl

end

section
variable (s : State) (w : Word)

@[simp] theorem setI_cfg : (s.setI w).cfg = s.cfg := rfl
@[simp] theorem setI_mem : (s.setI w).mem = s.mem := rfl
@[simp] theorem setI_v : (s.setI w).v = s.v := rfl
@[simp] theorem setI_i : (s.setI w).i = w := rfl
@[simp] theorem setI_pc : (s.setI w).pc = s.pc := rfl
@[simp] theorem setI_stk : (s.setI w).stk = s.stk := rfl
@[simp] theorem setI_dt : (s.setI w).dt = s.dt := rfl
@[simp] theorem setI_st : (s.setI w).st = s.st := rfl
@[simp] theorem setI_rpl : (s.setI w).rpl = s.rpl := rfl
@[simp] theorem setI_fb : (s.setI w).fb = s.fb := rfl
@[simp] theorem setI_hires : (s.setI w).hires = s.hires := rfl
@[simp] theorem setI_wait : (s.setI w).wait = s.wait := rfl
@[simp] theorem setI_run : (s.setI w).run = s.run := rfl
@[simp] theorem setI_burst : (s.setI w).burst = s.burst := rfl
@[simp] theorem setI_yielded : (s.setI w).yielded = s.yielded := rfl
@[simp] theorem setI_presents : (s.setI w).presents = s.presents := rfl
@[simp] theorem setI_keys : (s.setI w).keys = s.keys := rfl
@[simp] theorem setI_stop : (s.setI w).stop = s.stop := rfl
@[simp] theorem setI_rand : (s.setI w).rand = s.rand := rfl
@[simp] theorem setI_readV (y : Reg) : (s.setI w).readV y = s.readV y := rfl
@[simp] theorem setI_readRpl (j : Fin 8) : (s.setI w).readRpl j = s.readRpl j := rfl
@[simp] theorem setI_memRead (c : Nat) : (s.setI w).memRead c = s.memRead c := rfl

end

section
variable (s : State) (w : Word)

@[simp] theorem setPc_cfg : (s.setPc w).cfg = s.cfg := rfl
@[simp] theorem setPc_mem : (s.setPc w).mem = s.mem := rfl
@[simp] theorem setPc_v : (s.setPc w).v = s.v := rfl
@[simp] theorem setPc_i : (s.setPc w).i = s.i := rfl
@[simp] theorem setPc_pc : (s.setPc w).pc = w := rfl
@[simp] theorem setPc_stk : (s.setPc w).stk = s.stk := rfl
@[simp] theorem setPc_dt : (s.setPc w).dt = s.dt := rfl
@[simp] theorem setPc_st : (s.setPc w).st = s.st := rfl
@[simp] theorem setPc_rpl : (s.setPc w).rpl = s.rpl := rfl
@[simp] theorem setPc_fb : (s.setPc w).fb = s.fb := rfl
@[simp] theorem setPc_hires : (s.setPc w).hires = s.hires := rfl
@[simp] theorem setPc_wait : (s.setPc w).wait = s.wait := rfl
@[simp] theorem setPc_run : (s.setPc w).run = s.run := rfl
@[simp] theorem setPc_burst : (s.setPc w).burst = s.burst := rfl
@[simp] theorem setPc_yielded : (s.setPc w).yielded = s.yielded := rfl
@[simp] theorem setPc_presents : (s.setPc w).presents = s.presents := rfl
@[simp] theorem setPc_keys : (s.setPc w).keys = s.keys := rfl
@[simp] theorem setPc_stop : (s.setPc w).stop = s.stop := rfl
@[simp] theorem setPc_rand : (s.setPc w).rand = s.rand := rfl
@[simp] theorem setPc_readV (y : Reg) : (s.setPc w).readV y = s.readV y := rfl
@[simp] theorem setPc_readRpl (j : Fin 8) : (s.setPc w).readRpl j = s.readRpl j := rfl
@[simp] theorem setPc_memRead (c : Nat) : (s.setPc w).memRead c = s.memRead c := rfl

end

section
variable (s : State) (l : List Word)

@[simp] theorem setStk_cfg : (s.setStk l).cfg = s.cfg := rfl
@[simp] theorem setStk_mem : (s.setStk l).mem = s.mem := rfl
@[simp] theorem setStk_v : (s.setStk l).v = s.v := rfl
@[simp] theorem setStk_i : (s.setStk l).i = s.i := rfl
@[simp] theorem setStk_pc : (s.setStk l).pc = s.pc := rfl
@[simp] theorem setStk_stk : (s.setStk l).stk = l := rfl
@[simp] theorem setStk_dt : (s.setStk l).dt = s.dt := rfl
@[simp] theorem setStk_st : (s.setStk l).st = s.st := rfl
@[simp] theorem setStk_rpl : (s.setStk l).rpl = s.rpl := rfl
@[simp] theorem setStk_fb : (s.setStk l).fb = s.fb := rfl
@[simp] theorem setStk_hires : (s.setStk l).hires = s.hires := rfl
@[simp] theorem setStk_wait : (s.setStk l).wait = s.wait := rfl
@[simp] theorem setStk_run : (s.setStk l).run = s.run := rfl
@[simp] theorem setStk_burst : (s.setStk l).burst = s.burst := rfl
@[simp] theorem setStk_yielded : (s.setStk l).yielded = s.yielded := rfl
@[simp] theorem setStk_presents : (s.setStk l).presents = s.presents := rfl
@[simp] theorem setStk_keys : (s.setStk l).keys = s.keys := rfl
@[simp] theorem setStk_stop : (s.setStk l).stop = s.stop := rfl
@[simp] theorem setStk_rand : (s.setStk l).rand = s.rand := rfl
@[simp] theorem setStk_readV (y : Reg) : (s.setStk l).readV y = s.readV y := rfl
@[simp] theorem setStk_readRpl (j : Fin 8) : (s.setStk l).readRpl j = s.readRpl j := rfl
@[simp] theorem setStk_memRead (c : Nat) : (s.setStk l).memRead c = s.memRead c := rfl

end

section
variable (s : State) (b : Byte)

@[simp] theorem setDt_cfg : (s.setDt b).cfg = s.cfg := rfl
@[simp] theorem setDt_mem : (s.setDt b).mem = s.mem := rfl
@[simp] theorem setDt_v : (s.setDt b).v = s.v := rfl
@[simp] theorem setDt_i : (s.setDt b).i = s.i := rfl
@[simp] theorem setDt_pc : (s.setDt b).pc = s.pc := rfl
@[simp] theorem setDt_stk : (s.setDt b).stk = s.stk := rfl
@[simp] theorem setDt_dt : (s.setDt b).dt = b := rfl
@[simp] theorem setDt_st : (s.setDt b).st = s.st := rfl
@[simp] theorem setDt_rpl : (s.setDt b).rpl = s.rpl := rfl
@[simp] theorem setDt_fb : (s.setDt b).fb = s.fb := rfl
@[simp] theorem setDt_hires : (s.setDt b).hires = s.hires := rfl
@[simp] theorem setDt_wait : (s.setDt b).wait = s.wait := rfl
@[simp] theorem setDt_run : (s.setDt b).run = s.run := rfl
@[simp] theorem setDt_burst : (s.setDt b).burst = s.burst := rfl
@[simp] theorem setDt_yielded : (s.setDt b).yielded = s.yielded := rfl
@[simp] theorem setDt_presents : (s.setDt b).presents = s.presents := rfl
@[simp] theorem setDt_keys : (s.setDt b).keys = s.keys := rfl
@[simp] theorem setDt_stop : (s.setDt b).stop = s.stop := rfl
@[simp] theorem setDt_rand : (s.setDt b).rand = s.rand := rfl
@[simp] theorem setDt_readV (y : Reg) : (s.setDt b).readV y = s.readV y := rfl
@[simp] theorem setDt_readRpl (j : Fin 8) : (s.setDt b).readRpl j = s.readRpl j := rfl
@[simp] theorem setDt_memRead (c : Nat) : (s.setDt b).memRead c = s.memRead c := rfl

end

section
variable (s : State) (b : Byte)

@[simp] theorem setSt_cfg : (s.setSt b).cfg = s.cfg := rfl
@[simp] theorem setSt_mem : (s.setSt b).mem = s.mem := rfl
@[simp] theorem setSt_v : (s.setSt b).v = s.v := rfl
@[simp] theorem setSt_i : (s.setSt b).i = s.i := rfl
@[simp] theorem setSt_pc : (s.setSt b).pc = s.pc := rfl
@[simp] theorem setSt_stk : (s.setSt b).stk = s.stk := rfl
@[simp] theorem setSt_dt : (s.setSt b).dt = s.dt := rfl
@[simp] theorem setSt_st : (s.setSt b).st = b := rfl
@[simp] theorem setSt_rpl : (s.setSt b).rpl = s.rpl := rfl
@[simp] theorem setSt_fb : (s.setSt b).fb = s.fb := rfl
@[simp] theorem setSt_hires : (s.setSt b).hires = s.hires := rfl
@[simp] theorem setSt_wait : (s.setSt b).wait = s.wait := rfl
@[simp] theorem setSt_run : (s.setSt b).run = s.run := rfl
@[simp] theorem setSt_burst : (s.setSt b).burst = s.burst := rfl
@[simp] theorem setSt_yielded : (s.setSt b).yielded = s.yielded := rfl
@[simp] theorem setSt_presents : (s.setSt b).presents = s.presents := rfl
@[simp] theorem setSt_keys : (s.setSt b).keys = s.keys := rfl
@[simp] theorem setSt_stop : (s.setSt b).stop = s.stop := rfl
@[simp] theorem setSt_rand : (s.setSt b).rand = s.rand := rfl
@[simp] theorem setSt_readV (y : Reg) : (s.setSt b).readV y = s.readV y := rfl
@[simp] theorem setSt_readRpl (j : Fin 8) : (s.setSt b).readRpl j = s.readRpl j := rfl
@[simp] theorem setSt_memRead (c : Nat) : (s.setSt b).memRead c = s.memRead c := rfl

end

section
variable (s : State) (f : Framebuffer)

@[simp] theorem setFb_cfg : (s.setFb f).cfg = s.cfg := rfl
@[simp] theorem setFb_mem : (s.setFb f).mem = s.mem := rfl
@[simp] theorem setFb_v : (s.setFb f).v = s.v := rfl
@[simp] theorem setFb_i : (s.setFb f).i = s.i := rfl
@[simp] theorem setFb_pc : (s.setFb f).pc = s.pc := rfl
@[simp] theorem setFb_stk : (s.setFb f).stk = s.stk := rfl
@[simp] theorem setFb_dt : (s.setFb f).dt = s.dt := rfl
@[simp] theorem setFb_st : (s.setFb f).st = s.st := rfl
@[simp] theorem setFb_rpl : (s.setFb f).rpl = s.rpl := rfl
@[simp] theorem setFb_fb : (s.setFb f).fb = f := rfl
@[simp] theorem setFb_hires : (s.setFb f).hires = s.hires := rfl
@[simp] theorem setFb_wait : (s.setFb f).wait = s.wait := rfl
@[simp] theorem setFb_run : (s.setFb f).run = s.run := rfl
@[simp] theorem setFb_burst : (s.setFb f).burst = s.burst := rfl
@[simp] theorem setFb_yielded : (s.setFb f).yielded = s.yielded := rfl
@[simp] theorem setFb_presents : (s.setFb f).presents = s.presents := rfl
@[simp] theorem setFb_keys : (s.setFb f).keys = s.keys := rfl
@[simp] theorem setFb_stop : (s.setFb f).stop = s.stop := rfl
@[simp] theorem setFb_rand : (s.setFb f).rand = s.rand := rfl
@[simp] theorem setFb_readV (y : Reg) : (s.setFb f).readV y = s.readV y := rfl
@[simp] theorem setFb_readRpl (j : Fin 8) : (s.setFb f).readRpl j = s.readRpl j := rfl
@[simp] theorem setFb_memRead (c : Nat) : (s.setFb f).memRead c = s.memRead c := rfl

end

section
variable (s : State) (h : Bool)

@[simp] theorem setHires_cfg : (s.setHires h).cfg = s.cfg := rfl
@[simp] theorem setHires_mem : (s.setHires h).mem = s.mem := rfl
@[simp] theorem setHires_v : (s.setHires h).v = s.v := rfl
@[simp] theorem setHires_i : (s.setHires h).i = s.i := rfl
@[simp] theorem setHires_pc : (s.setHires h).pc = s.pc := rfl
@[simp] theorem setHires_stk : (s.setHires h).stk = s.stk := rfl
@[simp] theorem setHires_dt : (s.setHires h).dt = s.dt := rfl
@[simp] theorem setHires_st : (s.setHires h).st = s.st := rfl
@[simp] theorem setHires_rpl : (s.setHires h).rpl = s.rpl := rfl
@[simp] theorem setHires_fb : (s.setHires h).fb = s.fb := rfl
@[simp] theorem setHires_hires : (s.setHires h).hires = h := rfl
@[simp] theorem setHires_wait : (s.setHires h).wait = s.wait := rfl
@[simp] theorem setHires_run : (s.setHires h).run = s.run := rfl
@[simp] theorem setHires_burst : (s.setHires h).burst = s.burst := rfl
@[simp] theorem setHires_yielded : (s.setHires h).yielded = s.yielded := rfl
@[simp] theorem setHires_presents : (s.setHires h).presents = s.presents := rfl
@[simp] theorem setHires_keys : (s.setHires h).keys = s.keys := rfl
@[simp] theorem setHires_stop : (s.setHires h).stop = s.stop := rfl
@[simp] theorem setHires_rand : (s.setHires h).rand = s.rand := rfl
@[simp] theorem setHires_readV (y : Reg) : (s.setHires h).readV y = s.readV y := rfl
@[simp] theorem setHires_readRpl (j : Fin 8) : (s.setHires h).readRpl j = s.readRpl j := rfl
@[simp] theorem setHires_memRead (c : Nat) : (s.setHires h).memRead c = s.memRead c := rfl

end

section
variable (s : State) (w : KeyWait)

@[simp] theorem setWait_cfg : (s.setWait w).cfg = s.cfg := rfl
@[simp] theorem setWait_mem : (s.setWait w).mem = s.mem := rfl
@[simp] theorem setWait_v : (s.setWait w).v = s.v := rfl
@[simp] theorem setWait_i : (s.setWait w).i = s.i := rfl
@[simp] theorem setWait_pc : (s.setWait w).pc = s.pc := rfl
@[simp] theorem setWait_stk : (s.setWait w).stk = s.stk := rfl
@[simp] theorem setWait_dt : (s.setWait w).dt = s.dt := rfl
@[simp] theorem setWait_st : (s.setWait w).st = s.st := rfl
@[simp] theorem setWait_rpl : (s.setWait w).rpl = s.rpl := rfl
@[simp] theorem setWait_fb : (s.setWait w).fb = s.fb := rfl
@[simp] theorem setWait_hires : (s.setWait w).hires = s.hires := rfl
@[simp] theorem setWait_wait : (s.setWait w).wait = w := rfl
@[simp] theorem setWait_run : (s.setWait w).run = s.run := rfl
@[simp] theorem setWait_burst : (s.setWait w).burst = s.burst := rfl
@[simp] theorem setWait_yielded : (s.setWait w).yielded = s.yielded := rfl
@[simp] theorem setWait_presents : (s.setWait w).presents = s.presents := rfl
@[simp] theorem setWait_keys : (s.setWait w).keys = s.keys := rfl
@[simp] theorem setWait_stop : (s.setWait w).stop = s.stop := rfl
@[simp] theorem setWait_rand : (s.setWait w).rand = s.rand := rfl
@[simp] theorem setWait_readV (y : Reg) : (s.setWait w).readV y = s.readV y := rfl
@[simp] theorem setWait_readRpl (j : Fin 8) : (s.setWait w).readRpl j = s.readRpl j := rfl
@[simp] theorem setWait_memRead (c : Nat) : (s.setWait w).memRead c = s.memRead c := rfl

end

section
variable (s : State) (r : RunState)

@[simp] theorem setRun_cfg : (s.setRun r).cfg = s.cfg := rfl
@[simp] theorem setRun_mem : (s.setRun r).mem = s.mem := rfl
@[simp] theorem setRun_v : (s.setRun r).v = s.v := rfl
@[simp] theorem setRun_i : (s.setRun r).i = s.i := rfl
@[simp] theorem setRun_pc : (s.setRun r).pc = s.pc := rfl
@[simp] theorem setRun_stk : (s.setRun r).stk = s.stk := rfl
@[simp] theorem setRun_dt : (s.setRun r).dt = s.dt := rfl
@[simp] theorem setRun_st : (s.setRun r).st = s.st := rfl
@[simp] theorem setRun_rpl : (s.setRun r).rpl = s.rpl := rfl
@[simp] theorem setRun_fb : (s.setRun r).fb = s.fb := rfl
@[simp] theorem setRun_hires : (s.setRun r).hires = s.hires := rfl
@[simp] theorem setRun_wait : (s.setRun r).wait = s.wait := rfl
@[simp] theorem setRun_run : (s.setRun r).run = r := rfl
@[simp] theorem setRun_burst : (s.setRun r).burst = s.burst := rfl
@[simp] theorem setRun_yielded : (s.setRun r).yielded = s.yielded := rfl
@[simp] theorem setRun_presents : (s.setRun r).presents = s.presents := rfl
@[simp] theorem setRun_keys : (s.setRun r).keys = s.keys := rfl
@[simp] theorem setRun_stop : (s.setRun r).stop = s.stop := rfl
@[simp] theorem setRun_rand : (s.setRun r).rand = s.rand := rfl
@[simp] theorem setRun_readV (y : Reg) : (s.setRun r).readV y = s.readV y := rfl
@[simp] theorem setRun_readRpl (j : Fin 8) : (s.setRun r).readRpl j = s.readRpl j := rfl
@[simp] theorem setRun_memRead (c : Nat) : (s.setRun r).memRead c = s.memRead c := rfl

end

section
variable (s : State) (n : Nat)

@[simp] theorem setBurst_cfg : (s.setBurst n).cfg = s.cfg := rfl
@[simp] theorem setBurst_mem : (s.setBurst n).mem = s.mem := rfl
@[simp] theorem setBurst_v : (s.setBurst n).v = s.v := rfl
@[simp] theorem setBurst_i : (s.setBurst n).i = s.i := rfl
@[simp] theorem setBurst_pc : (s.setBurst n).pc = s.pc := rfl
@[simp] theorem setBurst_stk : (s.setBurst n).stk = s.stk := rfl
@[simp] theorem setBurst_dt : (s.setBurst n).dt = s.dt := rfl
@[simp] theorem setBurst_st : (s.setBurst n).st = s.st := rfl
@[simp] theorem setBurst_rpl : (s.setBurst n).rpl = s.rpl := rfl
@[simp] theorem setBurst_fb : (s.setBurst n).fb = s.fb := rfl
@[simp] theorem setBurst_hires : (s.setBurst n).hires = s.hires := rfl
@[simp] theorem setBurst_wait : (s.setBurst n).wait = s.wait := rfl
@[simp] theorem setBurst_run : (s.setBurst n).run = s.run := rfl
@[simp] theorem setBurst_burst : (s.setBurst n).burst = n := rfl
@[simp] theorem setBurst_yielded : (s.setBurst n).yielded = s.yielded := rfl
@[simp] theorem setBurst_presents : (s.setBurst n).presents = s.presents := rfl
@[simp] theorem setBurst_keys : (s.setBurst n).keys = s.keys := rfl
@[simp] theorem setBurst_stop : (s.setBurst n).stop = s.stop := rfl
@[simp] theorem setBurst_rand : (s.setBurst n).rand = s.rand := rfl
@[simp] theorem setBurst_readV (y : Reg) : (s.setBurst n).readV y = s.readV y := rfl
@[simp] theorem setBurst_readRpl (j : Fin 8) : (s.setBurst n).readRpl j = s.readRpl j := rfl
@[simp] theorem setBurst_memRead (c : Nat) : (s.setBurst n).memRead c = s.memRead c := rfl

end

section
variable (s : State) (b : Bool)

@[simp] theorem setYielded_cfg : (s.setYielded b).cfg = s.cfg := rfl
@[simp] theorem setYielded_mem : (s.setYielded b).mem = s.mem := rfl
@[simp] theorem setYielded_v : (s.setYielded b).v = s.v := rfl
@[simp] theorem setYielded_i : (s.setYielded b).i = s.i := rfl
@[simp] theorem setYielded_pc : (s.setYielded b).pc = s.pc := rfl
@[simp] theorem setYielded_stk : (s.setYielded b).stk = s.stk := rfl
@[simp] theorem setYielded_dt : (s.setYielded b).dt = s.dt := rfl
@[simp] theorem setYielded_st : (s.setYielded b).st = s.st := rfl
@[simp] theorem setYielded_rpl : (s.setYielded b).rpl = s.rpl := rfl
@[simp] theorem setYielded_fb : (s.setYielded b).fb = s.fb := rfl
@[simp] theorem setYielded_hires : (s.setYielded b).hires = s.hires := rfl
@[simp] theorem setYielded_wait : (s.setYielded b).wait = s.wait := rfl
@[simp] theorem setYielded_run : (s.setYielded b).run = s.run := rfl
@[simp] theorem setYielded_burst : (s.setYielded b).burst = s.burst := rfl
@[simp] theorem setYielded_yielded : (s.setYielded b).yielded = b := rfl
@[simp] theorem setYielded_presents : (s.setYielded b).presents = s.presents := rfl
@[simp] theorem setYielded_keys : (s.setYielded b).keys = s.keys := rfl
@[simp] theorem setYielded_stop : (s.setYielded b).stop = s.stop := rfl
@[simp] theorem setYielded_rand : (s.setYielded b).rand = s.rand := rfl
@[simp] theorem setYielded_readV (y : Reg) : (s.setYielded b).readV y = s.readV y := rfl
@[simp] theorem setYielded_readRpl (j : Fin 8) : (s.setYielded b).readRpl j = s.readRpl j := rfl
@[simp] theorem setYielded_memRead (c : Nat) : (s.setYielded b).memRead c = s.memRead c := rfl

end

section
variable (s : State) (n : Nat)

@[simp] theorem setPresents_cfg : (s.setPresents n).cfg = s.cfg := rfl
@[simp] theorem setPresents_mem : (s.setPresents n).mem = s.mem := rfl
@[simp] theorem setPresents_v : (s.setPresents n).v = s.v := rfl
@[simp] theorem setPresents_i : (s.setPresents n).i = s.i := rfl
@[simp] theorem setPresents_pc : (s.setPresents n).pc = s.pc := rfl
@[simp] theorem setPresents_stk : (s.setPresents n).stk = s.stk := rfl
@[simp] theorem setPresents_dt : (s.setPresents n).dt = s.dt := rfl
@[simp] theorem setPresents_st : (s.setPresents n).st = s.st := rfl
@[simp] theorem setPresents_rpl : (s.setPresents n).rpl = s.rpl := rfl
@[simp] theorem setPresents_fb : (s.setPresents n).fb = s.fb := rfl
@[simp] theorem setPresents_hires : (s.setPresents n).hires = s.hires := rfl
@[simp] theorem setPresents_wait : (s.setPresents n).wait = s.wait := rfl
@[simp] theorem setPresents_run : (s.setPresents n).run = s.run := rfl
@[simp] theorem setPresents_burst : (s.setPresents n).burst = s.burst := rfl
@[simp] theorem setPresents_yielded : (s.setPresents n).yielded = s.yielded := rfl
@[simp] theorem setPresents_presents : (s.setPresents n).presents = n := rfl
@[simp] theorem setPresents_keys : (s.setPresents n).keys = s.keys := rfl
@[simp] theorem setPresents_stop : (s.setPresents n).stop = s.stop := rfl
@[simp] theorem setPresents_rand : (s.setPresents n).rand = s.rand := rfl
@[simp] theorem setPresents_readV (y : Reg) : (s.setPresents n).readV y = s.readV y := rfl
@[simp] theorem setPresents_readRpl (j : Fin 8) : (s.setPresents n).readRpl j = s.readRpl j := rfl
@[simp] theorem setPresents_memRead (c : Nat) : (s.setPresents n).memRead c = s.memRead c := rfl

end

section
variable (s : State) (f : Feed (BitVec 16))

@[simp] theorem setKeys_cfg : (s.setKeys f).cfg = s.cfg := rfl
@[simp] theorem setKeys_mem : (s.setKeys f).mem = s.mem := rfl
@[simp] theorem setKeys_v : (s.setKeys f).v = s.v := rfl
@[simp] theorem setKeys_i : (s.setKeys f).i = s.i := rfl
@[simp] theorem setKeys_pc : (s.setKeys f).pc = s.pc := rfl
@[simp] theorem setKeys_stk : (s.setKeys f).stk = s.stk := rfl
@[simp] theorem setKeys_dt : (s.setKeys f).dt = s.dt := rfl
@[simp] theorem setKeys_st : (s.setKeys f).st = s.st := rfl
@[simp] theorem setKeys_rpl : (s.setKeys f).rpl = s.rpl := rfl
@[simp] theorem setKeys_fb : (s.setKeys f).fb = s.fb := rfl
@[simp] theorem setKeys_hires : (s.setKeys f).hires = s.hires := rfl
@[simp] theorem setKeys_wait : (s.setKeys f).wait = s.wait := rfl
@[simp] theorem setKeys_run : (s.setKeys f).run = s.run := rfl
@[simp] theorem setKeys_burst : (s.setKeys f).burst = s.burst := rfl
@[simp] theorem setKeys_yielded : (s.setKeys f).yielded = s.yielded := rfl
@[simp] theorem setKeys_presents : (s.setKeys f).presents = s.presents := rfl
@[simp] theorem setKeys_keys : (s.setKeys f).keys = f := rfl
@[simp] theorem setKeys_stop : (s.setKeys f).stop = s.stop := rfl
@[simp] theorem setKeys_rand : (s.setKeys f).rand = s.rand := rfl
@[simp] theorem setKeys_readV (y : Reg) : (s.setKeys f).readV y = s.readV y := rfl
@[simp] theorem setKeys_readRpl (j : Fin 8) : (s.setKeys f).readRpl j = s.readRpl j := rfl
@[simp] theorem setKeys_memRead (c : Nat) : (s.setKeys f).memRead c = s.memRead c := rfl

end

section
variable (s : State) (f : Feed Bool)

@[simp] theorem setStop_cfg : (s.setStop f).cfg = s.cfg := rfl
@[simp] theorem setStop_mem : (s.setStop f).mem = s.mem := rfl
@[simp] theorem setStop_v : (s.setStop f).v = s.v := rfl
@[simp] theorem setStop_i : (s.setStop f).i = s.i := rfl
@[simp] theorem setStop_pc : (s.setStop f).pc = s.pc := rfl
@[simp] theorem setStop_stk : (s.setStop f).stk = s.stk := rfl
@[simp] theorem setStop_dt : (s.setStop f).dt = s.dt := rfl
@[simp] theorem setStop_st : (s.setStop f).st = s.st := rfl
@[simp] theorem setStop_rpl : (s.setStop f).rpl = s.rpl := rfl
@[simp] theorem setStop_fb : (s.setStop f).fb = s.fb := rfl
@[simp] theorem setStop_hires : (s.setStop f).hires = s.hires := rfl
@[simp] theorem setStop_wait : (s.setStop f).wait = s.wait := rfl
@[simp] theorem setStop_run : (s.setStop f).run = s.run := rfl
@[simp] theorem setStop_burst : (s.setStop f).burst = s.burst := rfl
@[simp] theorem setStop_yielded : (s.setStop f).yielded = s.yielded := rfl
@[simp] theorem setStop_presents : (s.setStop f).presents = s.presents := rfl
@[simp] theorem setStop_keys : (s.setStop f).keys = s.keys := rfl
@[simp] theorem setStop_stop : (s.setStop f).stop = f := rfl
@[simp] theorem setStop_rand : (s.setStop f).rand = s.rand := rfl
@[simp] theorem setStop_readV (y : Reg) : (s.setStop f).readV y = s.readV y := rfl
@[simp] theorem setStop_readRpl (j : Fin 8) : (s.setStop f).readRpl j = s.readRpl j := rfl
@[simp] theorem setStop_memRead (c : Nat) : (s.setStop f).memRead c = s.memRead c := rfl

end

section
variable (s : State) (f : Feed Byte)

@[simp] theorem setRand_cfg : (s.setRand f).cfg = s.cfg := rfl
@[simp] theorem setRand_mem : (s.setRand f).mem = s.mem := rfl
@[simp] theorem setRand_v : (s.setRand f).v = s.v := rfl
@[simp] theorem setRand_i : (s.setRand f).i = s.i := rfl
@[simp] theorem setRand_pc : (s.setRand f).pc = s.pc := rfl
@[simp] theorem setRand_stk : (s.setRand f).stk = s.stk := rfl
@[simp] theorem setRand_dt : (s.setRand f).dt = s.dt := rfl
@[simp] theorem setRand_st : (s.setRand f).st = s.st := rfl
@[simp] theorem setRand_rpl : (s.setRand f).rpl = s.rpl := rfl
@[simp] theorem setRand_fb : (s.setRand f).fb = s.fb := rfl
@[simp] theorem setRand_hires : (s.setRand f).hires = s.hires := rfl
@[simp] theorem setRand_wait : (s.setRand f).wait = s.wait := rfl
@[simp] theorem setRand_run : (s.setRand f).run = s.run := rfl
@[simp] theorem setRand_burst : (s.setRand f).burst = s.burst := rfl
@[simp] theorem setRand_yielded : (s.setRand f).yielded = s.yielded := rfl
@[simp] theorem setRand_presents : (s.setRand f).presents = s.presents := rfl
@[simp] theorem setRand_keys : (s.setRand f).keys = s.keys := rfl
@[simp] theorem setRand_stop : (s.setRand f).stop = s.stop := rfl
@[simp] theorem setRand_rand : (s.setRand f).rand = f := rfl
@[simp] theorem setRand_readV (y : Reg) : (s.setRand f).readV y = s.readV y := rfl
@[simp] theorem setRand_readRpl (j : Fin 8) : (s.setRand f).readRpl j = s.readRpl j := rfl
@[simp] theorem setRand_memRead (c : Nat) : (s.setRand f).memRead c = s.memRead c := rfl

end

end Sys2Proof.Machine
end

