-- ==== Sys2Proof/Laws/Memory.lean ====
section
/-! SUPPORT. Memory: a read after a write to the same cell gives the byte written, a write leaves every other cell alone, and every operation keeps the canonical form. -/

namespace Sys2Proof.Machine

theorem Memory.read_put (image : Nat → Byte) (m : Memory) (a b : Nat) (w : Byte) :
    Memory.read image (Memory.put m a w) b = if b = a then w else Memory.read image m b := by
  induction m with
  | nil => simp [Memory.put, Memory.read]
  | cons c m ih =>
    obtain ⟨d, x⟩ := c
    by_cases h1 : a < d
    · simp [Memory.put, Memory.read, h1]
    · by_cases h2 : a = d
      · subst h2
        by_cases h3 : b = a <;> simp [Memory.put, Memory.read, h3]
      · by_cases h3 : b = d
        · have : b ≠ a := fun h => h2 (h ▸ h3)
          subst h3
          simp [Memory.put, Memory.read, h1, h2, this]
        · simp [Memory.put, Memory.read, h1, h2, h3, ih]

theorem Memory.read_drop (image : Nat → Byte) (m : Memory) (a b : Nat) :
    Memory.read image (Memory.drop m a) b = if b = a then image a else Memory.read image m b := by
  unfold Memory.drop
  induction m with
  | nil => by_cases h : b = a <;> simp [Memory.read, h]
  | cons c m ih =>
    obtain ⟨d, x⟩ := c
    by_cases h : d = a
    · subst h
      by_cases h2 : b = d <;> simp_all [Memory.read]
    · by_cases h2 : b = d <;> simp_all [Memory.read]

/-- Read after write, for every memory, canonical or not. -/
theorem Memory.read_write (image : Nat → Byte) (m : Memory) (a b : Nat) (w : Byte) :
    Memory.read image (Memory.write image m a w) b = if b = a then w else Memory.read image m b := by
  unfold Memory.write
  split
  · rename_i h; rw [Memory.read_drop, ← h]
  · exact Memory.read_put image m a b w

theorem Memory.risingFrom_le {lo hi : Nat} {m : Memory} (h : Memory.risingFrom hi m = true)
    (hl : lo ≤ hi) : Memory.risingFrom lo m = true := by
  cases m with
  | nil => rfl
  | cons c m =>
    simp only [Memory.risingFrom, Bool.and_eq_true, decide_eq_true_eq] at h ⊢
    exact ⟨by omega, h.2⟩

theorem Memory.risingFrom_put {lo a : Nat} {m : Memory} {w : Byte}
    (h : Memory.risingFrom lo m = true) (ha : lo ≤ a) :
    Memory.risingFrom lo (Memory.put m a w) = true := by
  induction m generalizing lo with
  | nil => simp [Memory.put, Memory.risingFrom, ha]
  | cons c m ih =>
    obtain ⟨d, x⟩ := c
    simp only [Memory.risingFrom, Bool.and_eq_true, decide_eq_true_eq] at h
    unfold Memory.put
    split
    · simp only [Memory.risingFrom, Bool.and_eq_true, decide_eq_true_eq]
      exact ⟨ha, by omega, h.2⟩
    · split
      · rename_i h2
        subst h2
        simp only [Memory.risingFrom, Bool.and_eq_true, decide_eq_true_eq]
        exact h
      · simp only [Memory.risingFrom, Bool.and_eq_true, decide_eq_true_eq]
        exact ⟨h.1, ih h.2 (by omega)⟩

theorem Memory.risingFrom_drop {lo a : Nat} {m : Memory} (h : Memory.risingFrom lo m = true) :
    Memory.risingFrom lo (Memory.drop m a) = true := by
  unfold Memory.drop
  induction m generalizing lo with
  | nil => rfl
  | cons c m ih =>
    obtain ⟨d, x⟩ := c
    simp only [Memory.risingFrom, Bool.and_eq_true, decide_eq_true_eq] at h
    rw [List.filter_cons]
    split
    · simp only [Memory.risingFrom, Bool.and_eq_true, decide_eq_true_eq]
      exact ⟨h.1, ih h.2⟩
    · exact Memory.risingFrom_le (ih h.2) (by omega)

theorem Memory.mem_put {m : Memory} {a : Nat} {w : Byte} {c : Host.Cell}
    (h : c ∈ Memory.put m a w) : c = (a, w) ∨ c ∈ m := by
  induction m with
  | nil => simpa [Memory.put] using h
  | cons d m ih =>
    unfold Memory.put at h
    split at h
    · simpa using h
    · split at h
      · rcases List.mem_cons.1 h with h | h
        · exact .inl h
        · exact .inr (List.mem_cons_of_mem _ h)
      · rcases List.mem_cons.1 h with h | h
        · exact .inr (h ▸ List.mem_cons_self)
        · exact (ih h).imp_right (List.mem_cons_of_mem _)

/-- A write to a cell of the machine keeps the canonical form. -/
theorem Memory.wf_write {image : Nat → Byte} {m : Memory} {a : Nat} {w : Byte}
    (h : Memory.wf image m = true) (ha : a < memSize) :
    Memory.wf image (Memory.write image m a w) = true := by
  simp only [Memory.wf, Bool.and_eq_true, List.all_eq_true, decide_eq_true_eq] at h ⊢
  unfold Memory.write
  split
  · refine ⟨Memory.risingFrom_drop h.1, fun c hc => h.2 c ?_⟩
    exact List.mem_of_mem_filter hc
  · rename_i hw
    refine ⟨Memory.risingFrom_put h.1 (Nat.zero_le a), fun c hc => ?_⟩
    rcases Memory.mem_put hc with rfl | hc
    · exact ⟨ha, hw⟩
    · exact h.2 c hc

/-! ### The same of the state -/

/-- `MemRead` after `MemWrite` (20_memory.md R29, R36). -/
theorem memRead_memWrite (s : State) (a b : Nat) (w : Byte) :
    (s.memWrite a w).memRead b = if b % memSize = a % memSize then w else s.memRead b :=
  Memory.read_write (resetByte s.cfg) s.mem (a % memSize) (b % memSize) w

/-- A store changes nothing but memory. -/
theorem memWrite_frame (s : State) (a : Nat) (w : Byte) : ∃ m, s.memWrite a w = s.setMem m :=
  ⟨_, rfl⟩

@[simp] theorem memWrite_cfg (s : State) (a : Nat) (w : Byte) : (s.memWrite a w).cfg = s.cfg := rfl

/-- Setting memory twice leaves the second. -/
@[simp] theorem setMem_setMem (s : State) (m m' : Memory) : (s.setMem m).setMem m' = s.setMem m' := rfl

@[simp] theorem setMem_self (s : State) : s.setMem s.mem = s := rfl

/-- A store keeps the canonical form. -/
theorem memWrite_wf {s : State} (a : Nat) (w : Byte)
    (h : Memory.wf (resetByte s.cfg) s.mem = true) :
    Memory.wf (resetByte s.cfg) (s.memWrite a w).mem = true :=
  Memory.wf_write h (Nat.mod_lt _ (by decide))

/-- The memory of the reset state is in canonical form, whatever the configuration. -/
theorem reset_memory_wf (c : Config) :
    Memory.wf (resetByte c) (State.resetWith c).mem = true := rfl

/-- Storing a list of bytes changes nothing but memory. -/
theorem memWriteAll_frame (s : State) (a : Nat) (ws : List Byte) :
    ∃ m, s.memWriteAll a ws = s.setMem m := by
  induction ws generalizing s a with
  | nil => exact ⟨s.mem, rfl⟩
  | cons w ws ih =>
    obtain ⟨m, h⟩ := ih (s.memWrite a w) (a + 1)
    exact ⟨m, by rw [State.memWriteAll, h]; rfl⟩

theorem memWriteAll_wf {s : State} (a : Nat) (ws : List Byte)
    (h : Memory.wf (resetByte s.cfg) s.mem = true) :
    Memory.wf (resetByte s.cfg) (s.memWriteAll a ws).mem = true := by
  induction ws generalizing s a with
  | nil => exact h
  | cons w ws ih => exact ih (s := s.memWrite a w) (a + 1) (memWrite_wf a w h)

/-- Reading after storing a list of bytes that fits the address space: the byte of the list at the
cells stored to, the old byte elsewhere. -/
theorem memRead_memWriteAll (s : State) (a : Nat) (ws : List Byte) (b : Nat)
    (hb : b < memSize) (ha : a + ws.length ≤ memSize) :
    (s.memWriteAll a ws).memRead b =
      if a ≤ b ∧ b < a + ws.length then ws.getD (b - a) 0 else s.memRead b := by
  induction ws generalizing s a with
  | nil => simp [State.memWriteAll]
  | cons w ws ih =>
    have ha' : a + 1 + ws.length ≤ memSize := by simpa [Nat.add_assoc, Nat.add_comm 1] using ha
    rw [State.memWriteAll, ih (s.memWrite a w) (a + 1) ha', memRead_memWrite,
      Nat.mod_eq_of_lt hb, Nat.mod_eq_of_lt (by simp at ha; omega : a < memSize)]
    by_cases h1 : b = a
    · subst h1; simp
    · by_cases h2 : a + 1 ≤ b ∧ b < a + 1 + ws.length
      · have h3 : a ≤ b ∧ b < a + (ws.length + 1) := by omega
        obtain ⟨k, rfl⟩ : ∃ k, b = a + 1 + k := ⟨b - (a + 1), by omega⟩
        have e1 : a + 1 + k - (a + 1) = k := by omega
        have e2 : a + 1 + k - a = k + 1 := by omega
        simp [h2, h3, e1, e2]
      · have h3 : ¬ (a ≤ b ∧ b < a + (ws.length + 1)) := by omega
        rw [if_neg h2, if_neg h1, List.length_cons, if_neg h3]

end Sys2Proof.Machine
end

