-- ==== Sys2Proof/Laws/Registers.lean ====
section
/-! SUPPORT. The register file, the flag-writing results and the counted loops: what each reads back as, and that it changes nothing else. -/

namespace Sys2Proof.Machine

/-- A register reads what was last written to it. -/
theorem readV_writeV (s : State) (x y : Reg) (b : Byte) :
    (s.writeV x b).readV y = if y = x then b else s.readV y := by
  simp only [State.readV, writeV_v, Vector.getElem_set, Fin.ext_iff, eq_comm]

@[simp] theorem readV_writeV_self (s : State) (x : Reg) (b : Byte) : (s.writeV x b).readV x = b := by
  simp [readV_writeV]

theorem readRpl_writeRpl (s : State) (j k : Fin 8) (b : Byte) :
    (s.writeRpl j b).readRpl k = if k = j then b else s.readRpl k := by
  simp only [State.readRpl, writeRpl_rpl, Vector.getElem_set, Fin.ext_iff, eq_comm]

/-! ### Results and flags -/

/-- The result goes to `V[X]` and the flag to VF, which wins when X = F. -/
theorem readV_writeResult (s : State) (x y : Reg) (r : Byte) (f : Bool) :
    (s.writeResult x r f).readV y =
      if y = vf then flagByte f else if y = x then r else s.readV y := by
  simp only [State.writeResult, readV_writeV]

theorem readV_writeLogic (s : State) (x y : Reg) (r : Byte) :
    (s.writeLogic x r).readV y =
      if s.cfg.qLogicVf0 = true ∧ y = vf then 0 else if y = x then r else s.readV y := by
  unfold State.writeLogic
  split <;> simp [readV_writeV, *]

theorem writeResult_frame (s : State) (x : Reg) (r : Byte) (f : Bool) :
    ∃ w, s.writeResult x r f = { s with v := w } := ⟨_, rfl⟩

theorem writeLogic_frame (s : State) (x : Reg) (r : Byte) :
    ∃ w, s.writeLogic x r = { s with v := w } := by
  unfold State.writeLogic
  split
  · exact ⟨_, rfl⟩
  · exact ⟨_, rfl⟩

theorem writeIndexFlag_frame (s : State) (o : Bool) :
    ∃ w, s.writeIndexFlag o = { s with v := w } := by
  unfold State.writeIndexFlag
  split
  · exact ⟨_, rfl⟩
  · split
    · exact ⟨_, rfl⟩
    · exact ⟨_, rfl⟩

/-- VF after FX1E; every other register is unchanged. -/
theorem readV_writeIndexFlag (s : State) (o : Bool) (y : Reg) :
    (s.writeIndexFlag o).readV y =
      if y = vf then
        (if o then 1 else match s.cfg.fx1eVfElse with | .clear => 0 | .keep => s.readV vf)
      else s.readV y := by
  unfold State.writeIndexFlag
  by_cases h : y = vf
  · subst h
    cases o <;> cases s.cfg.fx1eVfElse <;> simp
  · cases o <;> cases s.cfg.fx1eVfElse <;> simp [readV_writeV, h]

/-! ### Counted loops -/

@[simp] theorem loopReg_val {k : Nat} (h : k < 16) : (loopReg k).val = k := Nat.mod_eq_of_lt h

@[simp] theorem loopReg_of_val (r : Reg) : loopReg r.val = r := Fin.ext (Nat.mod_eq_of_lt r.isLt)

@[simp] theorem loopRpl_val {k : Nat} (h : k < 8) : (loopRpl k).val = k := Nat.mod_eq_of_lt h

@[simp] theorem loopRpl_of_val (k : Fin 8) : loopRpl k.val = k := Fin.ext (Nat.mod_eq_of_lt k.isLt)

theorem loopReg_eq_iff {k : Nat} (h : k < 16) (r : Reg) : r = loopReg k ↔ r.val = k := by
  rw [Fin.ext_iff, loopReg_val h]

theorem loopRpl_eq_iff {k : Nat} (h : k < 8) (r : Fin 8) : r = loopRpl k ↔ r.val = k := by
  rw [Fin.ext_iff, loopRpl_val h]

/-- The spill changes nothing but memory. -/
theorem spill_frame (s : State) (n : Nat) : ∃ m, s.spill n = s.setMem m := by
  induction n with
  | zero => exact ⟨s.mem, rfl⟩
  | succ k ih =>
    obtain ⟨m, h⟩ := ih
    exact ⟨_, by rw [State.spill, h]; rfl⟩

theorem spill_wf {s : State} (n : Nat) (h : Memory.wf (resetByte s.cfg) s.mem = true) :
    Memory.wf (resetByte s.cfg) (s.spill n).mem = true := by
  induction n with
  | zero => exact h
  | succ k ih =>
    obtain ⟨m, hm⟩ := spill_frame s k
    have hc : (s.spill k).cfg = s.cfg := by rw [hm]; rfl
    exact hc ▸ memWrite_wf (s := s.spill k) _ _ (hc.symm ▸ ih)

/-- The k-th byte the spill stores is `V[k]`. -/
theorem spill_memRead (s : State) {n k : Nat} (hk : k < n) (hn : n ≤ 16) :
    (s.spill n).memRead (s.ea k) = s.readV (loopReg k) := by
  induction n with
  | zero => omega
  | succ j ih =>
    rw [State.spill, memRead_memWrite]
    by_cases h : k = j
    · simp [h]
    · rw [if_neg, ih (by omega) (by omega)]
      simp only [State.ea, memSize]; omega

/-- Every cell but the n cells from I on reads as before. -/
theorem spill_memRead_outside (s : State) {n b : Nat}
    (h : ∀ k, k < n → b % memSize ≠ s.ea k % memSize) : (s.spill n).memRead b = s.memRead b := by
  induction n with
  | zero => rfl
  | succ j ih =>
    rw [State.spill, memRead_memWrite, if_neg (h j (by omega)), ih fun k hk => h k (by omega)]

/-- The fill changes nothing but general registers. -/
theorem fill_frame (s : State) (n : Nat) : ∃ w, s.fill n = { s with v := w } := by
  induction n with
  | zero => exact ⟨s.v, rfl⟩
  | succ k ih =>
    obtain ⟨w, h⟩ := ih
    exact ⟨_, by rw [State.fill, h]; rfl⟩

/-- After the fill the first n registers hold the bytes at I on. -/
theorem fill_readV (s : State) {n : Nat} (hn : n ≤ 16) (r : Reg) :
    (s.fill n).readV r = if r.val < n then s.memRead (s.ea r.val) else s.readV r := by
  induction n with
  | zero => simp [State.fill]
  | succ k ih =>
    rw [State.fill, readV_writeV, ih (by omega)]
    simp only [loopReg_eq_iff (show k < 16 by omega)]
    by_cases h : r.val = k
    · simp [h]
    · have : r.val < k + 1 ↔ r.val < k := by omega
      simp [h, this]

theorem spillRpl_frame (s : State) (n : Nat) : ∃ w, s.spillRpl n = { s with rpl := w } := by
  induction n with
  | zero => exact ⟨s.rpl, rfl⟩
  | succ k ih =>
    obtain ⟨w, h⟩ := ih
    exact ⟨_, by rw [State.spillRpl, h]; rfl⟩

theorem spillRpl_readRpl (s : State) {n : Nat} (hn : n ≤ 8) (k : Fin 8) :
    (s.spillRpl n).readRpl k = if k.val < n then s.readV (loopReg k.val) else s.readRpl k := by
  induction n with
  | zero => simp [State.spillRpl]
  | succ j ih =>
    rw [State.spillRpl, readRpl_writeRpl, ih (by omega)]
    simp only [loopRpl_eq_iff (show j < 8 by omega)]
    by_cases h : k.val = j
    · simp [h]
    · have : k.val < j + 1 ↔ k.val < j := by omega
      simp [h, this]

theorem fillRpl_frame (s : State) (n : Nat) : ∃ w, s.fillRpl n = { s with v := w } := by
  induction n with
  | zero => exact ⟨s.v, rfl⟩
  | succ k ih =>
    obtain ⟨w, h⟩ := ih
    exact ⟨_, by rw [State.fillRpl, h]; rfl⟩

theorem fillRpl_readV (s : State) {n : Nat} (hn : n ≤ 8) (r : Reg) :
    (s.fillRpl n).readV r = if r.val < n then s.readRpl (loopRpl r.val) else s.readV r := by
  induction n with
  | zero => simp [State.fillRpl]
  | succ k ih =>
    rw [State.fillRpl, readV_writeV, ih (by omega)]
    simp only [loopReg_eq_iff (show k < 16 by omega)]
    by_cases h : r.val = k
    · simp [h]
    · have : r.val < k + 1 ↔ r.val < k := by omega
      simp [h, this]

theorem advanceIndex_frame (s : State) (n : Nat) : ∃ w, s.advanceIndex n = s.setI w := by
  unfold State.advanceIndex
  split
  · exact ⟨_, rfl⟩
  · exact ⟨s.i, rfl⟩

theorem advanceIndex_i (s : State) (n : Nat) :
    (s.advanceIndex n).i = if s.cfg.qMemInc then indexWord (s.ea n) else s.i := by
  unfold State.advanceIndex
  split <;> simp

/-- What FX1E, FX55 and FX65 leave in the index register is below 4096. -/
theorem indexWord_lt (n : Nat) : (indexWord n).toNat < memSize := by
  simp only [indexWord, BitVec.toNat_ofNat, memSize]; omega

/-- A font digit is the value modulo 16. -/
theorem digitOf_val (b : Byte) : (digitOf b).val = b.toNat % 16 := by
  revert b; decide

/-! ### The program counter -/

theorem skipIf_frame (s : State) (c : Bool) : ∃ w, s.skipIf c = s.setPc w := by
  cases c
  · exact ⟨s.pc, rfl⟩
  · exact ⟨_, rfl⟩

theorem skipIf_pc (s : State) (c : Bool) : (s.skipIf c).pc = if c then s.pc + 2 else s.pc := by
  cases c <;> rfl

/-! ### Variant gating -/

/-- A configuration is of one variant or of the other. -/
theorem variant_cases (c : Config) : c.variant = .base ∨ c.variant = .ext := by
  cases c.variant <;> simp

theorem extOps_of_ext {c : Config} (h : c.variant = .ext) : c.extOps = true := by
  simp [Config.extOps, h, Variant.isExt]

theorem extOps_of_base {c : Config} (h : c.variant = .base) : c.extOps = false := by
  simp [Config.extOps, h, Variant.isExt]

/-- In EXT an extended-only form has its effect. -/
theorem ifExt_ext {s : State} (h : s.cfg.extOps = true) (i : Instr) (t : State) :
    s.ifExt i t = .next t := by simp [State.ifExt, h]

/-- In BASE an extended-only form raises the decode error on its own word. -/
theorem ifExt_base {s : State} (h : s.cfg.extOps = false) (i : Instr) (t : State) :
    s.ifExt i t = .next (s.raiseDecodeError (encode i)) := by simp [State.ifExt, h]

end Sys2Proof.Machine
end

