-- ==== Sys2Proof/Laws/Screen.lean ====
section
/-! SUPPORT. The framebuffer operations, pixel by pixel (43_display.md R82 to R87), and the pixels a draw flips (R96, R97). -/

namespace Sys2Proof.Machine

theorem rowOf_eq (fb : Framebuffer) (y : Nat) (h : y < 64) : rowOf fb y = fb[y] := by
  simp [rowOf, h]

theorem rowOf_outside (fb : Framebuffer) (y : Nat) (h : 64 ≤ y) : rowOf fb y = 0 := by
  simp [rowOf, Vector.getElem?_eq_none h]

/-- There is no lit pixel outside the 128 by 64 buffer. -/
theorem pixel_outside (fb : Framebuffer) (x y : Nat) (h : 128 ≤ x ∨ 64 ≤ y) :
    pixel fb x y = false := by
  rcases h with h | h
  · exact BitVec.getLsbD_of_ge _ _ h
  · simp [pixel, rowOf_outside fb y h]

/-- Two framebuffers with the same pixels are equal. -/
theorem framebuffer_ext {f g : Framebuffer}
    (h : ∀ x y, x < 128 → y < 64 → pixel f x y = pixel g x y) : f = g := by
  refine Vector.ext fun y hy => BitVec.eq_of_getLsbD_eq fun x hx => ?_
  simpa [pixel, rowOf_eq _ y hy] using h x y hx hy

@[simp] theorem pixel_blankScreen (x y : Nat) : pixel blankScreen x y = false := by
  by_cases h : y < 64
  · simp [pixel, rowOf_eq _ y h, blankScreen]
  · exact pixel_outside _ _ _ (.inr (by omega))

/-! ### Flips -/

/-- `Flip` toggles its pixel and no other (R82). -/
theorem pixel_flipPixel (fb : Framebuffer) {x y : Nat} (hx : x < 128) (hy : y < 64) (a b : Nat) :
    pixel (flipPixel fb x y).1 a b = (pixel fb a b ^^ decide ((a, b) = (x, y))) := by
  by_cases hb : b < 64
  · by_cases h : y = b
    · subst h
      by_cases ha : a < 128
      · by_cases e : a = x
        · subst e
          simp [flipPixel, pixel, rowOf, hy, ha]
        · have : (decide (a < 128) && !decide (a < x) && decide (a - x = 0)) = false := by
            simp; omega
          simp [flipPixel, pixel, rowOf, hy, e, this]
      · have : a ≠ x := by omega
        rw [pixel_outside _ _ _ (.inl (by omega)), pixel_outside _ _ _ (.inl (by omega))]
        simp [this]
    · simp [flipPixel, pixel, rowOf, hb, h, Ne.symm h]
  · have : b ≠ y := by omega
    rw [pixel_outside _ _ _ (.inr (by omega)), pixel_outside _ _ _ (.inr (by omega))]
    simp [this]

theorem flipPixel_old (fb : Framebuffer) (x y : Nat) : (flipPixel fb x y).2 = pixel fb x y := rfl

/-- Flipping distinct pixels of the buffer toggles exactly those. -/
theorem pixel_flipAll (ps : List (Nat × Nat)) (fb : Framebuffer) (hd : ps.Nodup)
    (hb : ∀ p ∈ ps, p.1 < 128 ∧ p.2 < 64) (a b : Nat) :
    pixel (flipAll ps fb).1 a b = (pixel fb a b ^^ decide ((a, b) ∈ ps)) := by
  induction ps generalizing fb with
  | nil => simp [flipAll]
  | cons p ps ih =>
    obtain ⟨x, y⟩ := p
    have hp := hb (x, y) List.mem_cons_self
    rw [List.nodup_cons] at hd
    rw [flipAll, ih _ hd.2 fun q hq => hb q (List.mem_cons_of_mem _ hq),
      pixel_flipPixel fb hp.1 hp.2]
    by_cases e : (a, b) = (x, y)
    · rw [e]; simp [hd.1]
    · simp [e]

/-- Flipping distinct pixels reports a collision exactly when one of them was lit (R82). -/
theorem flipAll_collision (ps : List (Nat × Nat)) (fb : Framebuffer) (hd : ps.Nodup)
    (hb : ∀ p ∈ ps, p.1 < 128 ∧ p.2 < 64) :
    (flipAll ps fb).2 = ps.any fun p => pixel fb p.1 p.2 := by
  induction ps generalizing fb with
  | nil => rfl
  | cons p ps ih =>
    obtain ⟨x, y⟩ := p
    have hp := hb (x, y) List.mem_cons_self
    rw [List.nodup_cons] at hd
    rw [flipAll, ih _ hd.2 fun q hq => hb q (List.mem_cons_of_mem _ hq), List.any_cons,
      flipPixel_old]
    refine congrArg (pixel fb x y || ·) ?_
    rw [Bool.eq_iff_iff, List.any_eq_true, List.any_eq_true]
    refine exists_congr fun q => and_congr_right fun hq => ?_
    have : ¬ (q.1, q.2) = (x, y) := fun e => hd.1 (by cases q; simp_all)
    rw [pixel_flipPixel fb hp.1 hp.2]
    simp [this]

/-! ### Scrolls -/

theorem getLsbD_activeColumns (w x : Nat) :
    (activeColumns w).getLsbD x = (decide (x < 128) && decide (x < w)) := by
  simp [activeColumns, BitVec.getLsbD_ofNat, Nat.testBit_two_pow_sub_one]

theorem getLsbD_replaceActive (w : Nat) (old new : Row) (x : Nat) :
    (replaceActive w old new).getLsbD x = if x < w then new.getLsbD x else old.getLsbD x := by
  by_cases h : x < 128
  · simp only [replaceActive, BitVec.getLsbD_or, BitVec.getLsbD_and, BitVec.getLsbD_not,
      getLsbD_activeColumns]
    by_cases h2 : x < w <;> simp [h, h2]
  · have : 128 ≤ x := by omega
    simp [BitVec.getLsbD_of_ge _ _ this]

/-- The active pixels are replaced, the others stay. -/
theorem pixel_mapActiveRows (w h : Nat) (fb : Framebuffer) (new : Nat → Row) (x y : Nat)
    (hh : h ≤ 64) :
    pixel (mapActiveRows w h fb new) x y =
      if x < w ∧ y < h then (new y).getLsbD x else pixel fb x y := by
  by_cases hy : y < 64
  · by_cases h2 : y < h
    · by_cases h3 : x < w <;>
        simp [pixel, rowOf, hy, mapActiveRows, h2, getLsbD_replaceActive, h3]
    · simp [pixel, rowOf, hy, mapActiveRows, h2]
  · have : ¬ (x < w ∧ y < h) := by omega
    rw [if_neg this, pixel_outside _ _ _ (.inr (by omega)), pixel_outside _ _ _ (.inr (by omega))]

/-- `ScrollDown(n)` (R84), pixel by pixel. -/
theorem pixel_scrollDown (w h n : Nat) (fb : Framebuffer) (x y : Nat) (hh : h ≤ 64) :
    pixel (scrollDown w h n fb) x y =
      if x < w ∧ y < h then (if y < n then false else pixel fb x (y - n)) else pixel fb x y := by
  rw [scrollDown, pixel_mapActiveRows _ _ _ _ _ _ hh]
  by_cases h2 : y < n <;> simp [h2, pixel]

/-- `ScrollRight4()` (R85), pixel by pixel. -/
theorem pixel_scrollRight4 (w h : Nat) (fb : Framebuffer) (x y : Nat) (hh : h ≤ 64) (hw : w ≤ 128) :
    pixel (scrollRight4 w h fb) x y =
      if x < w ∧ y < h then (if x < 4 then false else pixel fb (x - 4) y) else pixel fb x y := by
  rw [scrollRight4, pixel_mapActiveRows _ _ _ _ _ _ hh]
  by_cases h1 : x < w ∧ y < h
  · have : x < 128 := by omega
    rw [if_pos h1, if_pos h1, BitVec.getLsbD_shiftLeft]
    by_cases h2 : x < 4 <;> simp only [this, h2, pixel, decide_true, decide_false, Bool.not_true,
      Bool.not_false, Bool.and_false, Bool.false_and, Bool.and_true, Bool.true_and, if_true, if_false]
  · simp [h1]

/-- `ScrollLeft4()` (R86), pixel by pixel. -/
theorem pixel_scrollLeft4 (w h : Nat) (fb : Framebuffer) (x y : Nat) (hh : h ≤ 64) :
    pixel (scrollLeft4 w h fb) x y =
      if x < w ∧ y < h then (if x + 4 < w then pixel fb (x + 4) y else false) else pixel fb x y := by
  rw [scrollLeft4, pixel_mapActiveRows _ _ _ _ _ _ hh]
  by_cases h1 : x < w ∧ y < h
  · rw [if_pos h1, if_pos h1, BitVec.getLsbD_ushiftRight, BitVec.getLsbD_and,
      getLsbD_activeColumns, Nat.add_comm 4 x]
    by_cases h2 : x + 4 < 128
    · by_cases h3 : x + 4 < w <;> simp only [h2, h3, pixel, decide_true, decide_false,
        Bool.and_false, Bool.and_true, if_true, if_false]
    · simp [h2, pixel_outside fb (x + 4) y (.inl (by omega))]
  · simp [h1]

/-! ### The pixels of a draw -/

theorem width_le (s : State) : s.width ≤ 128 := by unfold State.width; split <;> omega

theorem height_le (s : State) : s.height ≤ 64 := by unfold State.height; split <;> omega

theorem width_pos (s : State) : 64 ≤ s.width := by unfold State.width; split <;> omega

theorem height_pos (s : State) : 32 ≤ s.height := by unfold State.height; split <;> omega

/-- The pixels DXYN flips: row r and column c of the sprite with a 1 bit, inside the active region. -/
theorem mem_smallPixels (s : State) (x0 y0 n a b : Nat) :
    (a, b) ∈ s.smallPixels x0 y0 n ↔
      ∃ r c, r < n ∧ c < 8 ∧ a = x0 + c ∧ b = y0 + r ∧ a < s.width ∧ b < s.height ∧
        s.smallBit r c = true := by
  simp only [State.smallPixels, List.mem_flatMap, List.mem_range]
  constructor
  · rintro ⟨r, hr, h⟩
    split at h
    · simp only [List.mem_map, List.mem_filter, List.mem_range, Bool.and_eq_true,
        decide_eq_true_eq, Prod.mk.injEq] at h
      obtain ⟨c, ⟨hc, hw, hbit⟩, rfl, rfl⟩ := h
      exact ⟨r, c, hr, hc, rfl, rfl, hw, by assumption, hbit⟩
    · simp at h
  · rintro ⟨r, c, hr, hc, rfl, rfl, hw, hh, hbit⟩
    refine ⟨r, hr, ?_⟩
    rw [if_pos hh]
    simp only [List.mem_map, List.mem_filter, List.mem_range, Bool.and_eq_true,
      decide_eq_true_eq, Prod.mk.injEq]
    exact ⟨c, ⟨hc, hw, hbit⟩, by simp⟩

/-- The pixels DXY0 flips: columns wrap around the active width. -/
theorem mem_largePixels (s : State) (x0 y0 a b : Nat) :
    (a, b) ∈ s.largePixels x0 y0 ↔
      ∃ r c, r < 16 ∧ c < 16 ∧ a = (x0 + c) % s.width ∧ b = y0 + r ∧ b < s.height ∧
        s.largeBit r c = true := by
  simp only [State.largePixels, List.mem_flatMap, List.mem_range]
  constructor
  · rintro ⟨r, hr, h⟩
    split at h
    · simp only [List.mem_map, List.mem_filter, List.mem_range, Prod.mk.injEq] at h
      obtain ⟨c, ⟨hc, hbit⟩, rfl, rfl⟩ := h
      exact ⟨r, c, hr, hc, rfl, rfl, by assumption, hbit⟩
    · simp at h
  · rintro ⟨r, c, hr, hc, rfl, rfl, hh, hbit⟩
    refine ⟨r, hr, ?_⟩
    rw [if_pos hh]
    simp only [List.mem_map, List.mem_filter, List.mem_range, Prod.mk.injEq]
    exact ⟨c, ⟨hc, hbit⟩, by simp⟩

/-- A list made row by row, from rows that differ in b and hold distinct pixels, holds distinct pixels. -/
theorem nodup_rows (n : Nat) (row : Nat → List (Nat × Nat)) (y0 : Nat)
    (hrow : ∀ r, (row r).Nodup) (hb : ∀ r, ∀ p ∈ row r, p.2 = y0 + r) :
    ((List.range n).flatMap row).Nodup := by
  rw [List.nodup_flatMap]
  refine ⟨fun r _ => hrow r, ?_⟩
  refine List.nodup_range.imp fun {r q} hrq => ?_
  intro p hp hq
  have := hb r p hp
  have := hb q p hq
  omega

theorem smallPixels_nodup (s : State) (x0 y0 n : Nat) : (s.smallPixels x0 y0 n).Nodup := by
  refine nodup_rows n _ y0 (fun r => ?_) (fun r p hp => ?_)
  · split
    · refine List.Nodup.map (fun a b h => ?_) (List.nodup_range.filter _)
      simp only [Prod.mk.injEq] at h
      omega
    · exact List.nodup_nil
  · split at hp
    · simp only [List.mem_map] at hp
      obtain ⟨c, _, rfl⟩ := hp
      rfl
    · simp at hp

theorem largePixels_nodup (s : State) (x0 y0 : Nat) : (s.largePixels x0 y0).Nodup := by
  have hw := width_pos s
  refine nodup_rows 16 _ y0 (fun r => ?_) (fun r p hp => ?_)
  · split
    · refine List.Nodup.map_on (fun a ha b hb h => ?_) (List.nodup_range.filter _)
      simp only [List.mem_filter, List.mem_range] at ha hb
      simp only [Prod.mk.injEq, and_true] at h
      have h1 : (x0 + a) ≡ (x0 + b) [MOD s.width] := h
      have h2 := Nat.ModEq.add_left_cancel' x0 h1
      exact Nat.ModEq.eq_of_lt_of_lt h2 (by omega) (by omega)
    · exact List.nodup_nil
  · split at hp
    · simp only [List.mem_map] at hp
      obtain ⟨c, _, rfl⟩ := hp
      rfl
    · simp at hp

theorem smallPixels_inside (s : State) (x0 y0 n : Nat) :
    ∀ p ∈ s.smallPixels x0 y0 n, p.1 < s.width ∧ p.2 < s.height := by
  rintro ⟨a, b⟩ hp
  obtain ⟨_, _, _, _, _, _, hw, hh, _⟩ := (mem_smallPixels s x0 y0 n a b).1 hp
  exact ⟨hw, hh⟩

theorem largePixels_inside (s : State) (x0 y0 : Nat) :
    ∀ p ∈ s.largePixels x0 y0, p.1 < s.width ∧ p.2 < s.height := by
  rintro ⟨a, b⟩ hp
  obtain ⟨_, _, _, _, ha, _, hh, _⟩ := (mem_largePixels s x0 y0 a b).1 hp
  exact ⟨ha ▸ Nat.mod_lt _ (by have := width_pos s; omega), hh⟩

/-- A list of pixels of the active region lies in the buffer. -/
theorem inside_buffer {s : State} {ps : List (Nat × Nat)}
    (h : ∀ p ∈ ps, p.1 < s.width ∧ p.2 < s.height) : ∀ p ∈ ps, p.1 < 128 ∧ p.2 < 64 := by
  intro p hp
  have := h p hp
  have := width_le s
  have := height_le s
  omega

/-! ### Draws -/

/-- A draw changes nothing but the framebuffer, VF and the yield signal. -/
theorem drawPixels_frame (s : State) (ps : List (Nat × Nat)) :
    ∃ f b, s.drawPixels ps = ((s.setFb f).writeV vf b).yieldStep := ⟨_, _, rfl⟩

theorem drawPixels_pixel (s : State) (ps : List (Nat × Nat)) (hd : ps.Nodup)
    (hb : ∀ p ∈ ps, p.1 < s.width ∧ p.2 < s.height) (a b : Nat) :
    pixel (s.drawPixels ps).fb a b = (pixel s.fb a b ^^ decide ((a, b) ∈ ps)) :=
  pixel_flipAll ps s.fb hd (inside_buffer hb) a b

theorem drawPixels_vf (s : State) (ps : List (Nat × Nat)) (hd : ps.Nodup)
    (hb : ∀ p ∈ ps, p.1 < s.width ∧ p.2 < s.height) :
    (s.drawPixels ps).readV vf = flagByte (ps.any fun p => pixel s.fb p.1 p.2) := by
  rw [← flipAll_collision ps s.fb hd (inside_buffer hb)]
  exact readV_writeV_self _ _ _

end Sys2Proof.Machine
end

