-- ==== Sys2Proof/Laws/Step.lean ====
section
/-! SUPPORT. What a step can do, said once: the answer of every meaning is a next state, and a step is a stop, a poll, an instruction or a decode error, followed by the bookkeeping of the burst. -/

namespace Sys2Proof.Machine

/-! ### Inputs -/

@[simp] theorem Feed.now_cons {α : Type} (free : Nat → α) (a : α) (l : List α) (n : Nat) :
    Feed.now free ⟨a :: l, n⟩ = a := rfl

@[simp] theorem Feed.now_nil {α : Type} (free : Nat → α) (n : Nat) :
    Feed.now free ⟨[], n⟩ = free n := rfl

@[simp] theorem Feed.next_script {α : Type} (f : Feed α) : f.next.script = f.script.tail := rfl

@[simp] theorem Feed.next_taken {α : Type} (f : Feed α) : f.next.taken = f.taken + 1 := rfl

theorem mem_keyCodes : ∀ j : Fin 16, j ∈ keyCodes := by decide

/-- `CurrentKey()` answers a key that is down, and no lower-numbered key is (R100). -/
theorem currentKey_some {levels : BitVec 16} {k : Fin 16} (h : currentKey levels = some k) :
    keyDown levels k = true ∧ ∀ j, j < k → keyDown levels j = false := by
  obtain ⟨hk, as, bs, hl, hall⟩ := List.find?_eq_some_iff_append.1 h
  refine ⟨hk, fun j hj => ?_⟩
  have hs : List.Pairwise (· < ·) keyCodes := by decide
  have hm := mem_keyCodes j
  rw [hl] at hs hm
  rcases List.mem_append.1 hm with hm | hm
  · simpa using hall j hm
  · rcases List.mem_cons.1 hm with rfl | hm
    · exact absurd hj (lt_irrefl _)
    · have := (List.pairwise_cons.1 (List.pairwise_append.1 hs).2.1).1 j hm
      exact absurd (this.trans hj) (lt_irrefl _)

/-- `CurrentKey()` answers none exactly when every key is up (R100). -/
theorem currentKey_none {levels : BitVec 16} :
    currentKey levels = none ↔ ∀ k, keyDown levels k = false := by
  simp only [currentKey, List.find?_eq_none, Bool.not_eq_true]
  exact ⟨fun h k => h k (mem_keyCodes k), fun h k _ => h k⟩

/-- A release poll that finds its key down yields (R104). -/
theorem releasePoll_down {s : State} {k : Fin 16} (h : keyDown s.keyLevels k = true) :
    s.releasePoll k = s.sampledKeys.yieldStep := if_pos h

/-- A release poll that finds its key up ends the wait (R104). -/
theorem releasePoll_up {s : State} {k : Fin 16} (h : keyDown s.keyLevels k = false) :
    s.releasePoll k = s.sampledKeys.setWait .none := if_neg (by rw [h]; decide)

/-! ### The pieces around a step -/

/-- Nothing but the STOP feed, the timers and the yield signal changes before a step. -/
theorem enterStep_frame (s : State) :
    ∃ f d b, s.enterStep = (((s.setStop f).setDt d).setSt b).setYielded false := by
  unfold State.enterStep
  split
  · exact ⟨_, _, _, rfl⟩
  · exact ⟨s.stop, s.dt, s.st, rfl⟩

/-- Nothing but the burst count and the present count changes after a step. -/
theorem finishStep_frame (s : State) :
    ∃ n p, s.finishStep = (s.setBurst n).setPresents p := by
  unfold State.finishStep
  split
  · exact ⟨s.burst, s.presents, rfl⟩
  · exact ⟨_, _, rfl⟩

@[simp] theorem enterStep_run (s : State) : s.enterStep.run = s.run := by
  obtain ⟨f, d, b, h⟩ := enterStep_frame s; rw [h]; rfl

@[simp] theorem enterStep_pc (s : State) : s.enterStep.pc = s.pc := by
  obtain ⟨f, d, b, h⟩ := enterStep_frame s; rw [h]; rfl

@[simp] theorem enterStep_wait (s : State) : s.enterStep.wait = s.wait := by
  obtain ⟨f, d, b, h⟩ := enterStep_frame s; rw [h]; rfl

@[simp] theorem enterStep_cfg (s : State) : s.enterStep.cfg = s.cfg := by
  obtain ⟨f, d, b, h⟩ := enterStep_frame s; rw [h]; rfl

@[simp] theorem enterStep_burst (s : State) : s.enterStep.burst = s.burst := by
  obtain ⟨f, d, b, h⟩ := enterStep_frame s; rw [h]; rfl

@[simp] theorem enterStep_fetchWord (s : State) : s.enterStep.fetchWord = s.fetchWord := by
  obtain ⟨f, d, b, h⟩ := enterStep_frame s; rw [h]; rfl

@[simp] theorem onNext_next (f : State → State) (s : State) : onNext f (.next s) = .next (f s) := rfl

/-! ### Every meaning answers a next state -/

/-- No instruction faults and none is refused. -/
theorem exec_next (i : Instr) (s : State) : ∃ t, exec i s = .next t := by
  have hx : ∀ j u, ∃ t, s.ifExt j u = .next t := fun j u => by
    unfold State.ifExt; split <;> exact ⟨_, rfl⟩
  cases i <;> first
    | exact ⟨_, rfl⟩
    | exact hx _ _
    | (simp only [exec, execRet]; split <;> exact ⟨_, rfl⟩)
    | (simp only [exec, execStf, execLdf]; split <;> first | exact hx _ _ | exact ⟨_, rfl⟩)

/-- What the spec's Step() does, case by case (30_encoding.md R39). -/
theorem coreStep_cases (s : State) :
    (∃ k, s.wait = .release k ∧ coreStep s = .next (s.releasePoll k)) ∨
    (s.wait = .none ∧ ∃ i, decodeWord s.cfg.variant s.fetchWord = .ok i ∧
      coreStep s = exec i s.advancePc) ∨
    (s.wait = .none ∧ ∃ e, decodeWord s.cfg.variant s.fetchWord = .error e ∧
      coreStep s = .next (s.advancePc.raiseDecodeError s.fetchWord)) := by
  cases hw : s.wait with
  | release k => exact .inl ⟨k, rfl, by simp [coreStep, hw]⟩
  | none =>
    cases hd : decodeWord s.cfg.variant s.fetchWord with
    | ok i => exact .inr (.inl ⟨rfl, i, rfl, by simp [coreStep, hw, hd]⟩)
    | error e => exact .inr (.inr ⟨rfl, e, rfl, by simp [coreStep, hw, hd]⟩)

theorem coreStep_next (s : State) : ∃ t, coreStep s = .next t := by
  rcases coreStep_cases s with ⟨k, _, h⟩ | ⟨_, i, _, h⟩ | ⟨_, e, _, h⟩
  · exact ⟨_, h⟩
  · rw [h]; exact exec_next i _
  · exact ⟨_, h⟩

/-- A running machine always takes a step, and this is all a step can be (R39, R119, R121, R123). -/
theorem step_cases {s : State} (h : s.run = .running) :
    (s.stopsNow = true ∧ step s = .next s.sampledStop.haltStopped) ∨
    (s.stopsNow = false ∧ ∃ u, coreStep s.enterStep = .next u ∧ step s = .next u.finishStep) := by
  obtain ⟨u, hu⟩ := coreStep_next s.enterStep
  cases hs : s.stopsNow
  · exact .inr ⟨rfl, u, hu, by simp [step, h, hs, hu]⟩
  · exact .inl ⟨rfl, by simp [step, h, hs]⟩

end Sys2Proof.Machine
end

