-- ==== Sys2Proof/Laws/Frame.lean ====
section
/-! SUPPORT. Frames: how the frames of two updates compose, the frame of each update of one piece of state, and the frame of each shared operation. -/

namespace Sys2Proof.Machine

/-- Nothing has changed from a state to itself. -/
theorem KeepsAllBut.refl (l : List Part) (s : State) : KeepsAllBut l s s := by
  intro p _
  cases p <;> first | rfl | exact fun _ => rfl

/-- A frame may list more than changed. -/
theorem KeepsAllBut.mono {l m : List Part} {s t : State} (h : KeepsAllBut l s t)
    (hl : ∀ p, p ∈ l → p ∈ m) : KeepsAllBut m s t := fun p hp => h p fun hm => hp (hl p hm)

/-- One piece of state kept twice is kept. -/
theorem Part.same_trans {p : Part} {s t u : State} (h : p.same s t) (g : p.same t u) : p.same s u := by
  cases p <;> first | exact Eq.trans g h | exact fun a => (g a).trans (h a)

/-- Frames compose. -/
theorem KeepsAllBut.trans {l : List Part} {s t u : State} (h : KeepsAllBut l s t)
    (g : KeepsAllBut l t u) : KeepsAllBut l s u := fun p hp => Part.same_trans (h p hp) (g p hp)

/-- A frame given part by part: every piece of state is listed or the same. -/
theorem keepsAllBut_iff {l : List Part} {s t : State} :
    KeepsAllBut l s t ↔ ∀ p, p ∈ l ∨ p.same s t := by
  refine forall_congr' fun p => ⟨fun h => ?_, fun h hp => h.resolve_left hp⟩
  by_cases hp : p ∈ l
  · exact .inl hp
  · exact .inr (h hp)

theorem keeps_setPc (s : State) (w : Word) : KeepsAllBut [.pc] s (s.setPc w) := by
  intro p hp
  cases p <;> first | exact absurd (List.mem_singleton.2 rfl) hp | rfl | exact fun _ => rfl

theorem keeps_setI (s : State) (w : Word) : KeepsAllBut [.i] s (s.setI w) := by
  intro p hp
  cases p <;> first | exact absurd (List.mem_singleton.2 rfl) hp | rfl | exact fun _ => rfl

theorem keeps_setStk (s : State) (l : List Word) : KeepsAllBut [.stk] s (s.setStk l) := by
  intro p hp
  cases p <;> first | exact absurd (List.mem_singleton.2 rfl) hp | rfl | exact fun _ => rfl

theorem keeps_setDt (s : State) (b : Byte) : KeepsAllBut [.dt] s (s.setDt b) := by
  intro p hp
  cases p <;> first | exact absurd (List.mem_singleton.2 rfl) hp | rfl | exact fun _ => rfl

theorem keeps_setSt (s : State) (b : Byte) : KeepsAllBut [.st] s (s.setSt b) := by
  intro p hp
  cases p <;> first | exact absurd (List.mem_singleton.2 rfl) hp | rfl | exact fun _ => rfl

theorem keeps_setFb (s : State) (f : Framebuffer) : KeepsAllBut [.fb] s (s.setFb f) := by
  intro p hp
  cases p <;> first | exact absurd (List.mem_singleton.2 rfl) hp | rfl | exact fun _ => rfl

theorem keeps_setHires (s : State) (b : Bool) : KeepsAllBut [.hires] s (s.setHires b) := by
  intro p hp
  cases p <;> first | exact absurd (List.mem_singleton.2 rfl) hp | rfl | exact fun _ => rfl

theorem keeps_setWait (s : State) (w : KeyWait) : KeepsAllBut [.wait] s (s.setWait w) := by
  intro p hp
  cases p <;> first | exact absurd (List.mem_singleton.2 rfl) hp | rfl | exact fun _ => rfl

theorem keeps_setRun (s : State) (r : RunState) : KeepsAllBut [.run] s (s.setRun r) := by
  intro p hp
  cases p <;> first | exact absurd (List.mem_singleton.2 rfl) hp | rfl | exact fun _ => rfl

theorem keeps_setBurst (s : State) (n : Nat) : KeepsAllBut [.burst] s (s.setBurst n) := by
  intro p hp
  cases p <;> first | exact absurd (List.mem_singleton.2 rfl) hp | rfl | exact fun _ => rfl

theorem keeps_setYielded (s : State) (b : Bool) : KeepsAllBut [.yielded] s (s.setYielded b) := by
  intro p hp
  cases p <;> first | exact absurd (List.mem_singleton.2 rfl) hp | rfl | exact fun _ => rfl

theorem keeps_setPresents (s : State) (n : Nat) : KeepsAllBut [.presents] s (s.setPresents n) := by
  intro p hp
  cases p <;> first | exact absurd (List.mem_singleton.2 rfl) hp | rfl | exact fun _ => rfl

theorem keeps_setKeys (s : State) (f : Feed (BitVec 16)) : KeepsAllBut [.keys] s (s.setKeys f) := by
  intro p hp
  cases p <;> first | exact absurd (List.mem_singleton.2 rfl) hp | rfl | exact fun _ => rfl

theorem keeps_setStop (s : State) (f : Feed Bool) : KeepsAllBut [.stop] s (s.setStop f) := by
  intro p hp
  cases p <;> first | exact absurd (List.mem_singleton.2 rfl) hp | rfl | exact fun _ => rfl

theorem keeps_setRand (s : State) (f : Feed Byte) : KeepsAllBut [.rand] s (s.setRand f) := by
  intro p hp
  cases p <;> first | exact absurd (List.mem_singleton.2 rfl) hp | rfl | exact fun _ => rfl

theorem keeps_setMem (s : State) (m : Memory) : KeepsAllBut [.mem] s (s.setMem m) := by
  intro p hp
  cases p <;> first | exact absurd (List.mem_singleton.2 rfl) hp | rfl | exact fun _ => rfl

theorem keeps_writeV (s : State) (x : Reg) (b : Byte) : KeepsAllBut [.v] s (s.writeV x b) := by
  intro p hp
  cases p <;> first | exact absurd (List.mem_singleton.2 rfl) hp | rfl | exact fun _ => rfl

theorem keeps_writeRpl (s : State) (k : Fin 8) (b : Byte) : KeepsAllBut [.rpl] s (s.writeRpl k b) := by
  intro p hp
  cases p <;> first | exact absurd (List.mem_singleton.2 rfl) hp | rfl | exact fun _ => rfl

/-- The frame with registers replaced whole. -/
theorem keeps_v (s : State) (w : Vector Byte 16) : KeepsAllBut [.v] s { s with v := w } := by
  intro p hp
  cases p <;> first | exact absurd (List.mem_singleton.2 rfl) hp | rfl | exact fun _ => rfl

/-- The frame with RPL registers replaced whole. -/
theorem keeps_rpl (s : State) (w : Vector Byte 8) : KeepsAllBut [.rpl] s { s with rpl := w } := by
  intro p hp
  cases p <;> first | exact absurd (List.mem_singleton.2 rfl) hp | rfl | exact fun _ => rfl

/-! ### The frame of each shared operation -/

theorem keeps_skipIf (s : State) (c : Bool) : KeepsAllBut [.pc] s (s.skipIf c) := by
  obtain ⟨w, h⟩ := skipIf_frame s c; rw [h]; exact keeps_setPc _ _

theorem keeps_advanceIndex (s : State) (n : Nat) : KeepsAllBut [.i] s (s.advanceIndex n) := by
  obtain ⟨w, h⟩ := advanceIndex_frame s n; rw [h]; exact keeps_setI _ _

theorem keeps_writeResult (s : State) (x : Reg) (r : Byte) (f : Bool) :
    KeepsAllBut [.v] s (s.writeResult x r f) := by
  obtain ⟨w, h⟩ := writeResult_frame s x r f; rw [h]; exact keeps_v _ _

theorem keeps_writeLogic (s : State) (x : Reg) (r : Byte) :
    KeepsAllBut [.v] s (s.writeLogic x r) := by
  obtain ⟨w, h⟩ := writeLogic_frame s x r; rw [h]; exact keeps_v _ _

theorem keeps_writeIndexFlag (s : State) (o : Bool) :
    KeepsAllBut [.v] s (s.writeIndexFlag o) := by
  obtain ⟨w, h⟩ := writeIndexFlag_frame s o; rw [h]; exact keeps_v _ _

theorem keeps_memWriteAll (s : State) (a : Nat) (ws : List Byte) :
    KeepsAllBut [.mem] s (s.memWriteAll a ws) := by
  obtain ⟨m, h⟩ := memWriteAll_frame s a ws; rw [h]; exact keeps_setMem _ _

theorem keeps_spill (s : State) (n : Nat) : KeepsAllBut [.mem] s (s.spill n) := by
  obtain ⟨m, h⟩ := spill_frame s n; rw [h]; exact keeps_setMem _ _

theorem keeps_fill (s : State) (n : Nat) : KeepsAllBut [.v] s (s.fill n) := by
  obtain ⟨w, h⟩ := fill_frame s n; rw [h]; exact keeps_v _ _

theorem keeps_spillRpl (s : State) (n : Nat) : KeepsAllBut [.rpl] s (s.spillRpl n) := by
  obtain ⟨w, h⟩ := spillRpl_frame s n; rw [h]; exact keeps_rpl _ _

theorem keeps_fillRpl (s : State) (n : Nat) : KeepsAllBut [.v] s (s.fillRpl n) := by
  obtain ⟨w, h⟩ := fillRpl_frame s n; rw [h]; exact keeps_v _ _

theorem keeps_drawPixels (s : State) (ps : List (Nat × Nat)) :
    KeepsAllBut [.fb, .v, .yielded] s (s.drawPixels ps) := by
  obtain ⟨f, b, h⟩ := drawPixels_frame s ps
  rw [h]
  exact (((keeps_setFb s f).mono (by decide)).trans
    ((keeps_writeV _ _ _).mono (by decide))).trans ((keeps_setYielded _ _).mono (by decide))

theorem keeps_enterStep (s : State) : KeepsAllBut [.stop, .dt, .st, .yielded] s s.enterStep := by
  obtain ⟨f, d, b, h⟩ := enterStep_frame s
  rw [h]
  exact ((((keeps_setStop s _).mono (by decide)).trans ((keeps_setDt _ _).mono (by decide))).trans
    ((keeps_setSt _ _).mono (by decide))).trans ((keeps_setYielded _ _).mono (by decide))

theorem keeps_finishStep (s : State) : KeepsAllBut [.burst, .presents] s s.finishStep := by
  obtain ⟨n, p, h⟩ := finishStep_frame s
  rw [h]
  exact ((keeps_setBurst s _).mono (by decide)).trans ((keeps_setPresents _ _).mono (by decide))

theorem keeps_releasePoll (s : State) (k : Fin 16) :
    KeepsAllBut [.keys, .yielded, .wait] s (s.releasePoll k) := by
  unfold State.releasePoll
  split
  · exact ((keeps_setKeys _ _).mono (by decide)).trans ((keeps_setYielded _ _).mono (by decide))
  · exact ((keeps_setKeys _ _).mono (by decide)).trans ((keeps_setWait _ _).mono (by decide))

theorem keeps_raiseDecodeError (s : State) (w : Word) :
    KeepsAllBut [.run] s (s.raiseDecodeError w) := keeps_setRun _ _

/-- An extended-only form changes what its effect changes, and RUN. -/
theorem keeps_ifExt {l : List Part} {s u t : State} {i : Instr} (h : s.ifExt i u = .next t)
    (hu : KeepsAllBut l s u) : KeepsAllBut (.run :: l) s t := by
  unfold State.ifExt at h
  split at h
  · cases h; exact hu.mono fun p hp => List.mem_cons_of_mem _ hp
  · cases h; exact (keeps_setRun _ _).mono fun p hp => by simp_all

end Sys2Proof.Machine
end

