-- ==== Sys2Proof/Laws/PerInstr.lean ====
section
/-! SUPPORT. The fields of an encoded word, and the family RoundTrip: every well-formed instruction decodes from its own word (30_encoding.md R40 to R44). -/

namespace Sys2Proof

theorem toNat_encXNN (opc : BitVec 4) (x : Reg) (nn : Byte) :
    (encXNN opc x nn).toNat = opc.toNat * 4096 + x.val * 256 + nn.toNat := by
  have h1 := nn.isLt
  have h2 : (nibble x).toNat = x.val := rfl
  have h3 := x.isLt
  rw [encXNN, BitVec.toNat_append, BitVec.toNat_append, ← Nat.shiftLeft_add_eq_or_of_lt h1,
    ← Nat.shiftLeft_add_eq_or_of_lt (nibble x).isLt, h2]
  simp only [Nat.shiftLeft_eq]
  omega

theorem toNat_encXYN (opc : BitVec 4) (x y : Reg) (n : BitVec 4) :
    (encXYN opc x y n).toNat = opc.toNat * 4096 + x.val * 256 + y.val * 16 + n.toNat := by
  have h1 := n.isLt
  have h2 : (nibble x).toNat = x.val := rfl
  have h3 : (nibble y).toNat = y.val := rfl
  rw [encXYN, BitVec.toNat_append, BitVec.toNat_append, BitVec.toNat_append,
    ← Nat.shiftLeft_add_eq_or_of_lt h1, ← Nat.shiftLeft_add_eq_or_of_lt (nibble y).isLt,
    ← Nat.shiftLeft_add_eq_or_of_lt (nibble x).isLt, h2, h3]
  simp only [Nat.shiftLeft_eq]
  omega

theorem toNat_encNNN (opc : BitVec 4) (nnn : BitVec 12) :
    (encNNN opc nnn).toNat = opc.toNat * 4096 + nnn.toNat := by
  rw [encNNN, BitVec.toNat_append, ← Nat.shiftLeft_add_eq_or_of_lt nnn.isLt, Nat.shiftLeft_eq]

section
variable (opc : BitVec 4) (x y : Reg) (nn : Byte) (n : BitVec 4) (nnn : BitVec 12)

@[simp] theorem field_opc_encXNN : field (encXNN opc x nn) 15 12 = opc.toNat := by
  have := opc.isLt; have := nn.isLt; have := x.isLt
  simp only [field, toNat_encXNN, Nat.reducePow, Nat.reduceAdd, Nat.reduceSub]; omega

@[simp] theorem field_lo_encXNN : field (encXNN opc x nn) 7 0 = nn.toNat := by
  have := nn.isLt
  simp only [field, toNat_encXNN, Nat.reducePow, Nat.reduceAdd, Nat.reduceSub]; omega

@[simp] theorem fieldX_encXNN : fieldX (encXNN opc x nn) = x := by
  have := nn.isLt; have := x.isLt
  ext
  simp only [fieldX, Fin.val_ofNat, field, toNat_encXNN, Nat.reducePow, Nat.reduceAdd, Nat.reduceSub]
  omega

@[simp] theorem fieldNN_encXNN : fieldNN (encXNN opc x nn) = nn := by
  rw [fieldNN, field_lo_encXNN]; simp

@[simp] theorem field_opc_encXYN : field (encXYN opc x y n) 15 12 = opc.toNat := by
  have := opc.isLt; have := n.isLt; have := x.isLt; have := y.isLt
  simp only [field, toNat_encXYN, Nat.reducePow, Nat.reduceAdd, Nat.reduceSub]; omega

@[simp] theorem field_n_encXYN : field (encXYN opc x y n) 3 0 = n.toNat := by
  have := n.isLt
  simp only [field, toNat_encXYN, Nat.reducePow, Nat.reduceAdd, Nat.reduceSub]; omega

@[simp] theorem fieldX_encXYN : fieldX (encXYN opc x y n) = x := by
  have := n.isLt; have := x.isLt; have := y.isLt
  ext
  simp only [fieldX, Fin.val_ofNat, field, toNat_encXYN, Nat.reducePow, Nat.reduceAdd, Nat.reduceSub]
  omega

@[simp] theorem fieldY_encXYN : fieldY (encXYN opc x y n) = y := by
  have := n.isLt; have := y.isLt
  ext
  simp only [fieldY, Fin.val_ofNat, field, toNat_encXYN, Nat.reducePow, Nat.reduceAdd, Nat.reduceSub]
  omega

@[simp] theorem fieldN_encXYN (k : Fin 16) : fieldN (encXYN opc x y (nibble k)) = k := by
  ext
  rw [fieldN, field_n_encXYN]
  exact Nat.mod_eq_of_lt k.isLt

@[simp] theorem fieldN_encXYN_zero : fieldN (encXYN opc x y 0#4) = 0 := by
  rw [fieldN, field_n_encXYN]; rfl

@[simp] theorem field_opc_encNNN : field (encNNN opc nnn) 15 12 = opc.toNat := by
  have := opc.isLt; have := nnn.isLt
  simp only [field, toNat_encNNN, Nat.reducePow, Nat.reduceAdd, Nat.reduceSub]; omega

@[simp] theorem fieldNNN_encNNN : fieldNNN (encNNN opc nnn) = nnn := by
  have := nnn.isLt
  refine BitVec.eq_of_toNat_eq ?_
  simp only [fieldNNN, BitVec.toNat_ofNat, field, toNat_encNNN, Nat.reducePow, Nat.reduceAdd,
    Nat.reduceSub]
  omega

end

end Sys2Proof

namespace Sys2Proof.Laws.RoundTrip

/-- A well-formed instruction is what the decoder reads from its own word. -/
def Statement (i : Instr) : Prop :=
  ∀ v : Variant, i.wf v = true → decodeWord v (encode i) = .ok i

theorem cls : Statement .cls := fun v _ => by cases v <;> rfl

theorem ret : Statement .ret := fun v _ => by cases v <;> rfl

theorem scd (n : Fin 16) : Statement (.scd n) := fun v h => by
  cases v
  · cases h
  · revert n; decide

theorem scr : Statement .scr := fun v h => by cases v <;> first | rfl | cases h

theorem scl : Statement .scl := fun v h => by cases v <;> first | rfl | cases h

theorem exit : Statement .exit := fun v h => by cases v <;> first | rfl | cases h

theorem low : Statement .low := fun v h => by cases v <;> first | rfl | cases h

theorem high : Statement .high := fun v h => by cases v <;> first | rfl | cases h

theorem jp (nnn : BitVec 12) : Statement (.jp nnn) := fun v _ => by
  simp [decodeWord, encode]

theorem call (nnn : BitVec 12) : Statement (.call nnn) := fun v _ => by
  simp [decodeWord, encode]

theorem seImm (x : Reg) (nn : Byte) : Statement (.seImm x nn) := fun v _ => by
  simp [decodeWord, encode]

theorem sneImm (x : Reg) (nn : Byte) : Statement (.sneImm x nn) := fun v _ => by
  simp [decodeWord, encode]

theorem seReg (x : Reg) (y : Reg) : Statement (.seReg x y) := fun v _ => by
  simp [decodeWord, encode]

theorem ldImm (x : Reg) (nn : Byte) : Statement (.ldImm x nn) := fun v _ => by
  simp [decodeWord, encode]

theorem addImm (x : Reg) (nn : Byte) : Statement (.addImm x nn) := fun v _ => by
  simp [decodeWord, encode]

theorem ldReg (x : Reg) (y : Reg) : Statement (.ldReg x y) := fun v _ => by
  simp [decodeWord, decodeAlu, encode]

theorem orReg (x : Reg) (y : Reg) : Statement (.orReg x y) := fun v _ => by
  simp [decodeWord, decodeAlu, encode]

theorem andReg (x : Reg) (y : Reg) : Statement (.andReg x y) := fun v _ => by
  simp [decodeWord, decodeAlu, encode]

theorem xorReg (x : Reg) (y : Reg) : Statement (.xorReg x y) := fun v _ => by
  simp [decodeWord, decodeAlu, encode]

theorem addReg (x : Reg) (y : Reg) : Statement (.addReg x y) := fun v _ => by
  simp [decodeWord, decodeAlu, encode]

theorem sub (x : Reg) (y : Reg) : Statement (.sub x y) := fun v _ => by
  simp [decodeWord, decodeAlu, encode]

theorem shr (x : Reg) (y : Reg) : Statement (.shr x y) := fun v _ => by
  simp [decodeWord, decodeAlu, encode]

theorem subn (x : Reg) (y : Reg) : Statement (.subn x y) := fun v _ => by
  simp [decodeWord, decodeAlu, encode]

theorem shl (x : Reg) (y : Reg) : Statement (.shl x y) := fun v _ => by
  simp [decodeWord, decodeAlu, encode]

theorem sneReg (x : Reg) (y : Reg) : Statement (.sneReg x y) := fun v _ => by
  simp [decodeWord, encode]

theorem ldIdx (nnn : BitVec 12) : Statement (.ldIdx nnn) := fun v _ => by
  simp [decodeWord, encode]

theorem jpo (nnn : BitVec 12) : Statement (.jpo nnn) := fun v _ => by
  simp [decodeWord, encode]

theorem rnd (x : Reg) (nn : Byte) : Statement (.rnd x nn) := fun v _ => by
  simp [decodeWord, encode]

theorem drw (x : Reg) (y : Reg) (n : Fin 16) : Statement (.drw x y n) := fun v h => by
  simp only [Instr.wf, Bool.not_eq_true', Bool.and_eq_false_iff, decide_eq_false_iff_not] at h
  rcases h with h | h <;> simp [decodeWord, decodeDraw, encode, h]

theorem drw16 (x : Reg) (y : Reg) : Statement (.drw16 x y) := fun v h => by
  simp only [Instr.wf] at h
  simp [decodeWord, decodeDraw, encode, h]

theorem skp (x : Reg) : Statement (.skp x) := fun v _ => by
  simp [decodeWord, decodeKey, encode]

theorem sknp (x : Reg) : Statement (.sknp x) := fun v _ => by
  simp [decodeWord, decodeKey, encode]

theorem getdt (x : Reg) : Statement (.getdt x) := fun v _ => by
  simp [decodeWord, decodeMisc, encode]

theorem wkey (x : Reg) : Statement (.wkey x) := fun v _ => by
  simp [decodeWord, decodeMisc, encode]

theorem setdt (x : Reg) : Statement (.setdt x) := fun v _ => by
  simp [decodeWord, decodeMisc, encode]

theorem setst (x : Reg) : Statement (.setst x) := fun v _ => by
  simp [decodeWord, decodeMisc, encode]

theorem addIdx (x : Reg) : Statement (.addIdx x) := fun v _ => by
  simp [decodeWord, decodeMisc, encode]

theorem font (x : Reg) : Statement (.font x) := fun v _ => by
  simp [decodeWord, decodeMisc, encode]

theorem fonthi (x : Reg) : Statement (.fonthi x) := fun v h => by
  simp only [Instr.wf] at h
  simp [decodeWord, decodeMisc, onlyInExt, encode, h]

theorem bcd (x : Reg) : Statement (.bcd x) := fun v _ => by
  simp [decodeWord, decodeMisc, encode]

theorem stm (x : Reg) : Statement (.stm x) := fun v _ => by
  simp [decodeWord, decodeMisc, encode]

theorem ldm (x : Reg) : Statement (.ldm x) := fun v _ => by
  simp [decodeWord, decodeMisc, encode]

theorem stf (x : Reg) : Statement (.stf x) := fun v h => by
  simp only [Instr.wf, Bool.and_eq_true, decide_eq_true_eq] at h
  simp [decodeWord, decodeMisc, onlyLowX, encode, h]

theorem ldf (x : Reg) : Statement (.ldf x) := fun v h => by
  simp only [Instr.wf, Bool.and_eq_true, decide_eq_true_eq] at h
  simp [decodeWord, decodeMisc, onlyLowX, encode, h]

end Sys2Proof.Laws.RoundTrip
end

