-- ==== Sys2Proof/Tests/Slice0.lean ====
section
/-! SUPPORT. The model's own tests. Expected results are written out from the spec: 30_encoding.md for the words, 95_test_vectors.md (the vector's id is in the theorem's comment) and the examples of the instruction rules for the effects. -/

namespace Sys2Proof.Tests

open Sys2Proof.Machine

-- One theorem after the other: many kernel evaluations at once would ask for many threads.
set_option Elab.async false

/-! ### Well-formedness: each check refuses an ill-formed term -/

theorem test_wf_scd_base : (Instr.scd 3).wf .base = false := by decide
theorem test_wf_exit_base : Instr.exit.wf .base = false := by decide
theorem test_wf_drw16_base : (Instr.drw16 0 1).wf .base = false := by decide
theorem test_wf_fonthi_base : (Instr.fonthi 0).wf .base = false := by decide
theorem test_wf_stf_base : (Instr.stf 3).wf .base = false := by decide
theorem test_wf_stf_high : (Instr.stf 8).wf .ext = false := by decide
theorem test_wf_ldf_high : (Instr.ldf 9).wf .ext = false := by decide
theorem test_wf_drw_zero_ext : (Instr.drw 0 1 0).wf .ext = false := by decide

/-! ### Decoding: a word written out from the spec's encoding, for every constructor -/

/-- 40_flow.md R50 to R58. -/
theorem test_decode_flow :
    decodeWord .base 0x00EE#16 = .ok .ret ∧ decodeWord .base 0x1ABC#16 = .ok (.jp 0xABC#12) ∧
    decodeWord .base 0x2300#16 = .ok (.call 0x300#12) ∧
    decodeWord .base 0x3A42#16 = .ok (.seImm 0xA 0x42#8) ∧
    decodeWord .base 0x4207#16 = .ok (.sneImm 2 0x07#8) ∧
    decodeWord .base 0x5340#16 = .ok (.seReg 3 4) ∧
    decodeWord .base 0x9340#16 = .ok (.sneReg 3 4) ∧
    decodeWord .base 0xB210#16 = .ok (.jpo 0x210#12) ∧
    decodeWord .ext 0x00FD#16 = .ok .exit := by decide

/-- 41_alu.md R60 to R71. -/
theorem test_decode_alu :
    decodeWord .base 0x6A2F#16 = .ok (.ldImm 0xA 0x2F#8) ∧
    decodeWord .base 0x7120#16 = .ok (.addImm 1 0x20#8) ∧
    decodeWord .base 0x8120#16 = .ok (.ldReg 1 2) ∧ decodeWord .base 0x8121#16 = .ok (.orReg 1 2) ∧
    decodeWord .base 0x8122#16 = .ok (.andReg 1 2) ∧
    decodeWord .base 0x8123#16 = .ok (.xorReg 1 2) ∧
    decodeWord .base 0x8124#16 = .ok (.addReg 1 2) ∧ decodeWord .base 0x8125#16 = .ok (.sub 1 2) ∧
    decodeWord .base 0x8126#16 = .ok (.shr 1 2) ∧ decodeWord .base 0x8127#16 = .ok (.subn 1 2) ∧
    decodeWord .base 0x812E#16 = .ok (.shl 1 2) ∧
    decodeWord .base 0xC10F#16 = .ok (.rnd 1 0x0F#8) := by decide

/-- 42_index_memory.md R72 to R80. -/
theorem test_decode_index :
    decodeWord .base 0xA050#16 = .ok (.ldIdx 0x050#12) ∧
    decodeWord .base 0xF21E#16 = .ok (.addIdx 2) ∧ decodeWord .base 0xF129#16 = .ok (.font 1) ∧
    decodeWord .ext 0xF130#16 = .ok (.fonthi 1) ∧ decodeWord .base 0xF033#16 = .ok (.bcd 0) ∧
    decodeWord .base 0xF255#16 = .ok (.stm 2) ∧ decodeWord .base 0xFF65#16 = .ok (.ldm 0xF) ∧
    decodeWord .ext 0xF775#16 = .ok (.stf 7) ∧ decodeWord .ext 0xF185#16 = .ok (.ldf 1) := by decide

/-- 43_display.md R90 to R97. -/
theorem test_decode_display :
    decodeWord .base 0x00E0#16 = .ok .cls ∧ decodeWord .ext 0x00C3#16 = .ok (.scd 3) ∧
    decodeWord .ext 0x00FB#16 = .ok .scr ∧ decodeWord .ext 0x00FC#16 = .ok .scl ∧
    decodeWord .ext 0x00FE#16 = .ok .low ∧ decodeWord .ext 0x00FF#16 = .ok .high ∧
    decodeWord .ext 0xD015#16 = .ok (.drw 0 1 5) ∧ decodeWord .base 0xD010#16 = .ok (.drw 0 1 0) ∧
    decodeWord .ext 0xD010#16 = .ok (.drw16 0 1) := by decide

/-- 44_input_timers.md R101 to R107. -/
theorem test_decode_input :
    decodeWord .base 0xE39E#16 = .ok (.skp 3) ∧ decodeWord .base 0xE3A1#16 = .ok (.sknp 3) ∧
    decodeWord .base 0xF50A#16 = .ok (.wkey 5) ∧ decodeWord .base 0xF207#16 = .ok (.getdt 2) ∧
    decodeWord .base 0xF215#16 = .ok (.setdt 2) ∧ decodeWord .base 0xF018#16 = .ok (.setst 0) := by
  decide

/-- T-ENC-1 to T-ENC-7, T-ENC-9, T-FLOW-14: the classes of illegal words. -/
theorem test_decode_illegal :
    decodeWord .ext 0x0000#16 = .error .unlistedSys ∧ decodeWord .ext 0x0123#16 = .error .unlistedSys ∧
    decodeWord .ext 0x5121#16 = .error .lowNibble5 ∧ decodeWord .ext 0x9121#16 = .error .lowNibble9 ∧
    decodeWord .ext 0x8128#16 = .error .unlistedAlu ∧ decodeWord .ext 0x812F#16 = .error .unlistedAlu ∧
    decodeWord .ext 0xE300#16 = .error .unlistedKey ∧ decodeWord .ext 0xF000#16 = .error .unlistedMisc ∧
    decodeWord .ext 0xF875#16 = .error .rplRange ∧ decodeWord .ext 0xF985#16 = .error .rplRange ∧
    decodeWord .base 0x00C1#16 = .error .extOnly ∧ decodeWord .base 0xF030#16 = .error .extOnly ∧
    decodeWord .base 0xF175#16 = .error .extOnly := by decide

theorem test_decode_bytes :
    decode .base [0x12#8, 0x34#8, 0x56#8] = .ok (.jp 0x234#12, [0x56#8]) ∧
    decode .base [0x12#8] = .error .truncated := by decide

theorem test_decodeTableWord : decodeTableWord 16 0x8124 = some (.addReg 1 2) := by decide

/-! ### One step of one instruction -/

/-- A configuration written out: IPT 5, VF kept by FX1E without overflow. -/
def cfgOf (v : Variant) (older : Bool) : Config :=
  ⟨v, older, 5, .keep, fontLoDefault, Vector.replicate 160 0⟩

/-- The reset state of that configuration, in the middle of a tick, so that a step is one Step() of
the spec and nothing before it. -/
def start (v : Variant) (older : Bool := false) : State :=
  (State.resetWith (cfgOf v older)).setBurst 1

/-- What is seen of the state after one step that fetches the word `w` at PC. -/
def see {α : Type} (s : State) (w : Nat) (f : State → α) : Option α :=
  match step (s.withFetchWord 16 w) with
  | .next t => some (f t)
  | .fault _ => none
  | .refused _ => none

/-- T-FLOW-1. -/
theorem test_jp : see (start .base) 0x1ABC State.pc = some 0x0ABC := by decide +kernel

/-- T-FLOW-2, and R50's example. -/
theorem test_call_pushes :
    see ((start .base).setPc 0x204) 0x2300 (fun t => (t.stk, t.pc)) = some ([0x206], 0x300) := by
  decide +kernel

/-- T-FLOW-3. -/
theorem test_ret_pops :
    see (((start .base).setPc 0x400).setStk [0x202, 0x30A]) 0x00EE (fun t => (t.stk, t.pc)) =
      some ([0x202], 0x30A) := by decide +kernel

/-- T-FLOW-7, the test the source requires for a stack underflow. -/
theorem test_ret_underflow :
    see (start .base) 0x00EE (fun t => (t.run, t.pc)) =
      some (.halted .stackUnderflow 0x00EE 0x202, 0x202) := by decide +kernel

/-- T-FLOW-4a. -/
theorem test_seImm_skips :
    see ((start .base).writeV 0xA 0x42) 0x3A42 State.pc = some 0x204 := by decide +kernel

/-- T-FLOW-5a. -/
theorem test_sneImm_stays :
    see ((start .base).writeV 0xA 0x42) 0x4A42 State.pc = some 0x202 := by decide +kernel

/-- T-FLOW-6b. -/
theorem test_seReg_stays :
    see (((start .base).writeV 1 9).writeV 2 8) 0x5120 State.pc = some 0x202 := by decide +kernel

/-- T-FLOW-6d. -/
theorem test_sneReg_skips :
    see (((start .base).writeV 1 9).writeV 2 8) 0x9120 State.pc = some 0x204 := by decide +kernel

/-- T-FLOW-8a. -/
theorem test_jpo_legacy :
    see (((start .base true).writeV 0 0xFF).writeV 2 1) 0xB2FF State.pc = some 0x03FE := by
  decide +kernel

/-- T-FLOW-9. -/
theorem test_jpo_modern : see ((start .ext).writeV 0xF 0xFF) 0xBFFF State.pc = some 0x10FE := by
  decide +kernel

/-- T-FLOW-10: fetched from 0xFFE, PC wraps to 0 and the skip adds 2. -/
theorem test_pc_wraps :
    see ((start .base).setPc 0xFFFE) 0x3000 State.pc = some 0x0002 := by decide +kernel

/-- T-FLOW-13. -/
theorem test_exit_ext :
    see ((start .ext).setPc 0x20C) 0x00FD State.run = some (.halted .exit 0x00FD 0x20E) := by
  decide +kernel

/-- T-FLOW-12. -/
theorem test_exit_base : see (start .base) 0x00FD State.run = some (.halted .decode 0x00FD 0x202) := by
  decide +kernel

/-- T-ENC-1: running into zeroed memory. -/
theorem test_zero_word :
    see (start .ext) 0x0000 (fun t => (t.run, t.pc)) =
      some (.halted .decode 0x0000 0x202, 0x202) := by decide +kernel

/-- T-ALU-1. -/
theorem test_ldImm : see (start .base) 0x6A7F (fun t => t.readV 0xA) = some 0x7F := by decide +kernel

/-- T-ALU-2: no carry recorded. -/
theorem test_addImm_wraps :
    see (((start .base).writeV 0xA 0xFF).writeV 0xF 0x55) 0x7A02
      (fun t => (t.readV 0xA, t.readV 0xF)) = some (0x01, 0x55) := by decide +kernel

/-- T-ALU-3. -/
theorem test_ldReg :
    see ((start .base).writeV 2 0x55) 0x8120 (fun t => t.readV 1) = some 0x55 := by decide +kernel

/-- T-ALU-6f and T-ALU-6g: the result 0xFF is overwritten by 0 in BASE and stays in EXT. -/
theorem test_orReg_vf :
    see (((start .base).writeV 0xF 0x0F).writeV 1 0xF0) 0x8F11 (fun t => t.readV 0xF) = some 0x00 ∧
    see (((start .ext).writeV 0xF 0x0F).writeV 1 0xF0) 0x8F11 (fun t => t.readV 0xF) = some 0xFF := by
  decide +kernel

/-- T-ALU-5. -/
theorem test_andReg :
    see ((((start .base).writeV 1 0x3C).writeV 2 0x0F).writeV 0xF 1) 0x8122
      (fun t => (t.readV 1, t.readV 0xF)) = some (0x0C, 0) := by decide +kernel

/-- T-ALU-6e. -/
theorem test_xorReg :
    see ((((start .ext).writeV 1 0xFF).writeV 2 0x0F).writeV 0xF 1) 0x8123
      (fun t => (t.readV 1, t.readV 0xF)) = some (0xF0, 1) := by decide +kernel

/-- T-ALU-7c: the sum is exactly 256. -/
theorem test_addReg_carry :
    see (((start .base).writeV 0 0xFF).writeV 1 0x01) 0x8014
      (fun t => (t.readV 0, t.readV 0xF)) = some (0x00, 1) := by decide +kernel

/-- T-ALU-7d: the flag survives when X = F. -/
theorem test_addReg_vf :
    see (((start .base).writeV 0xF 0xFF).writeV 1 0x02) 0x8F14 (fun t => t.readV 0xF) =
      some 0x01 := by decide +kernel

/-- T-ALU-8a and T-ALU-8b: a borrow, and equal operands. -/
theorem test_sub_borrow :
    see (((start .base).writeV 0 5).writeV 1 10) 0x8015 (fun t => (t.readV 0, t.readV 0xF)) =
      some (0xFB, 0) ∧
    see (((start .base).writeV 0 7).writeV 1 7) 0x8015 (fun t => (t.readV 0, t.readV 0xF)) =
      some (0x00, 1) := by decide +kernel

/-- T-ALU-9a. -/
theorem test_subn :
    see (((start .base).writeV 0 5).writeV 1 10) 0x8017 (fun t => (t.readV 0, t.readV 0xF)) =
      some (0x05, 1) := by decide +kernel

/-- T-ALU-10a and T-ALU-10b. -/
theorem test_shr_quirk :
    see (((start .ext).writeV 1 5).writeV 2 8) 0x8126 (fun t => (t.readV 1, t.readV 0xF, t.readV 2)) =
      some (0x02, 1, 8) ∧
    see (((start .base true).writeV 1 5).writeV 2 8) 0x8126
      (fun t => (t.readV 1, t.readV 0xF, t.readV 2)) = some (0x04, 0, 8) := by decide +kernel

/-- T-ALU-11c: VF is read as VY before it is written. -/
theorem test_shl_vf_source :
    see ((start .base true).writeV 0xF 0x81) 0x81FE (fun t => (t.readV 1, t.readV 0xF)) =
      some (0x02, 1) := by decide +kernel

/-- T-ALU-12a. -/
theorem test_rnd_masks :
    see ((start .base).setRand ⟨[0xA7], 0⟩) 0xC10F (fun t => t.readV 1) = some 0x07 := by
  decide +kernel

/-- T-IDX-1. -/
theorem test_ldIdx : see (start .base) 0xAFFF State.i = some 0xFFF := by decide +kernel

/-- T-IDX-2b and T-IDX-2e: VF kept without overflow, the wrap with it. -/
theorem test_addIdx :
    see ((((start .base).setI 0x300).writeV 2 0x10).writeV 0xF 7) 0xF21E
      (fun t => (t.i, t.readV 0xF)) = some (0x310, 7) ∧
    see (((start .base).setI 0xF01).writeV 2 0xFF) 0xF21E (fun t => (t.i, t.readV 0xF)) =
      some (0x000, 1) := by decide +kernel

/-- T-IDX-3c: the low four bits. -/
theorem test_font : see ((start .base).writeV 1 0x1A) 0xF129 State.i = some 0x082 := by decide +kernel

/-- S-11. -/
theorem test_fonthi : see ((start .ext).writeV 1 0x0F) 0xF130 State.i = some 0x136 := by
  decide +kernel

/-- T-IDX-5b: the third digit wraps to address 0. -/
theorem test_bcd_wraps :
    see (((start .base).setI 0xFFE).writeV 0 123) 0xF033
      (fun t => (t.memRead 0xFFE, t.memRead 0xFFF, t.memRead 0x000)) = some (1, 2, 3) := by
  decide +kernel

/-- T-IDX-6c. -/
theorem test_stm_legacy :
    see ((((start .base true).setI 0xFFF).writeV 0 0xAA).writeV 1 0xBB) 0xF155
      (fun t => (t.memRead 0xFFF, t.memRead 0x000, t.i)) = some (0xAA, 0xBB, 0x001) := by
  decide +kernel

/-- T-IDX-7a. -/
theorem test_ldm_modern :
    see ((((start .ext).memWriteAll 0x300 [2, 5, 5, 7]).setI 0x300).writeV 3 9) 0xF265
      (fun t => (t.readV 0, t.readV 1, t.readV 2, t.readV 3, t.i)) = some (2, 5, 5, 9, 0x300) := by
  decide +kernel

/-- T-IDX-8. -/
theorem test_stf :
    see ((((start .ext).writeV 0 0xAA).writeV 1 0xBB).writeV 2 0xCC) 0xF175
      (fun t => (t.readRpl 0, t.readRpl 1, t.readRpl 2)) = some (0xAA, 0xBB, 0) := by decide +kernel

/-- T-IDX-9, and T-ENC-7. -/
theorem test_ldf :
    see ((((start .ext).writeRpl 0 0xAA).writeRpl 1 0xBB).writeRpl 2 0xCC) 0xF185
      (fun t => (t.readV 0, t.readV 1, t.readV 2)) = some (0xAA, 0xBB, 0) ∧
    see (start .ext) 0xF985 State.run = some (.halted .decode 0xF985 0x202) := by decide +kernel

/-- The pixels of a list that are lit. -/
def lit (t : State) (ps : List (Nat × Nat)) : List Bool := ps.map fun p => pixel t.fb p.1 p.2

/-- The screen of a state with some pixels flipped. -/
def flipped (s : State) (ps : List (Nat × Nat)) : State := s.setFb (flipAll ps s.fb).1

/-- T-DSP-12. -/
theorem test_cls :
    see (flipped (start .base) [(1, 1), (63, 31)]) 0x00E0 (fun t => (lit t [(1, 1), (63, 31)])) =
      some [false, false] := by decide +kernel

/-- T-DSP-13. -/
theorem test_scd :
    see (flipped ((start .ext).setHires true) [(5, 0), (6, 60), (7, 61)]) 0x00C3
      (fun t => lit t [(5, 0), (5, 3), (6, 63), (7, 61), (7, 0)]) =
      some [false, true, true, false, false] := by decide +kernel

/-- T-DSP-16. -/
theorem test_scr :
    see (flipped (start .ext) [(0, 0), (59, 1), (60, 2)]) 0x00FB
      (fun t => lit t [(0, 0), (4, 0), (63, 1), (64, 2), (0, 2)]) =
      some [false, true, true, false, false] := by decide +kernel

/-- T-DSP-18. -/
theorem test_scl :
    see (flipped (start .ext) [(4, 0), (3, 1), (63, 2)]) 0x00FC
      (fun t => lit t [(0, 0), (4, 0), (0, 1), (59, 2), (63, 2)]) =
      some [true, false, false, true, false] := by decide +kernel

/-- T-DSP-21. -/
theorem test_low :
    see (flipped ((start .ext).setHires true) [(100, 50)]) 0x00FE
      (fun t => (t.hires, lit t [(100, 50)])) = some (false, [false]) := by decide +kernel

/-- T-DSP-20: clears even without a change of mode. -/
theorem test_high :
    see (flipped ((start .ext).setHires true) [(100, 50)]) 0x00FF
      (fun t => (t.hires, lit t [(100, 50)])) = some (true, [false]) := by decide +kernel

/-- T-DSP-2: the sprite FF 81 FF is clipped at the right and bottom edges. -/
theorem test_drw_clips :
    see (((((start .base).memWriteAll 0x300 [0xFF, 0x81, 0xFF]).setI 0x300).writeV 0 60).writeV 1 30)
      0xD013 (fun t => (lit t [(60, 30), (63, 30), (60, 31), (61, 31), (0, 30), (60, 0)], t.readV 0xF)) =
      some ([true, true, true, false, false, false], 0) := by decide +kernel

/-- T-DSP-4: a collision. -/
theorem test_drw_collides :
    see (flipped (((start .base).memWriteAll 0x300 [0xC0]).setI 0x300) [(1, 0), (2, 0)]) 0xD011
      (fun t => (lit t [(0, 0), (1, 0), (2, 0)], t.readV 0xF)) = some ([true, false, true], 1) := by
  decide +kernel

/-- T-DSP-11: the first byte is the left half, the most significant bit leftmost. -/
theorem test_drw16_halves :
    see ((((start .ext).setHires true).memWriteAll 0x300 [0x80, 0x01, 0x00, 0x80]).setI 0x300) 0xD010
      (fun t => (lit t [(0, 0), (15, 0), (8, 1), (7, 0)], t.readV 0xF)) =
      some ([true, true, true, false], 0) := by decide +kernel

/-- T-DSP-9: columns wrap at 128, rows are clipped at 63. -/
theorem test_drw16_wraps :
    see ((((((start .ext).setHires true).memWriteAll 0x300 (List.replicate 32 0xFF)).setI
      0x300).writeV 0 120).writeV 1 60) 0xD010
      (fun t => lit t [(120, 60), (127, 63), (0, 60), (7, 63), (8, 60), (0, 0)]) =
      some [true, true, true, true, false, false] := by decide +kernel

/-- T-KEY-3: the low four bits. -/
theorem test_skp :
    see (((start .base).writeV 3 0x1A).setKeys ⟨[0x0400], 0⟩) 0xE39E State.pc = some 0x204 := by
  decide +kernel

/-- T-KEY-2b. -/
theorem test_sknp :
    see (((start .base).writeV 3 0x0A).setKeys ⟨[0x0400], 0⟩) 0xE3A1 State.pc = some 0x202 := by
  decide +kernel

/-- T-KEY-4a. -/
theorem test_wkey_none :
    see (((start .base).setPc 0x210).setKeys ⟨[0], 0⟩) 0xF50A (fun t => (t.pc, t.wait, t.yielded)) =
      some (0x210, .none, true) := by decide +kernel

/-- T-KEY-4b: the lowest of the keys 3, 7 and 0xC. -/
theorem test_wkey_lowest :
    see (((start .base).setPc 0x210).setKeys ⟨[0x1088], 0⟩) 0xF50A
      (fun t => (t.readV 5, t.pc, t.wait, t.yielded)) = some (3, 0x212, .release 3, true) := by
  decide +kernel

/-- T-KEY-5a and T-KEY-5b, on the spec's Step(). -/
theorem test_release_poll :
    coreStep (((start .base).setWait (.release 7)).setKeys ⟨[0x0080], 0⟩) =
      .next ((((start .base).setWait (.release 7)).setKeys ⟨[], 1⟩).setYielded true) ∧
    coreStep (((start .base).setWait (.release 7)).setKeys ⟨[0x0008], 0⟩) =
      .next (((start .base).setWait .none).setKeys ⟨[], 1⟩) := ⟨rfl, rfl⟩

/-- T-TMR-1. -/
theorem test_getdt :
    see ((start .base).setDt 0x3C) 0xF207 (fun t => (t.readV 2, t.dt)) = some (0x3C, 0x3C) := by
  decide +kernel

/-- T-TMR-2. -/
theorem test_setdt : see ((start .base).writeV 2 0x3C) 0xF215 State.dt = some 0x3C := by decide +kernel

/-- T-TMR-3. -/
theorem test_setst :
    see ((start .base).writeV 0 2) 0xF018 (fun t => (t.st, t.soundOn)) = some (2, true) := by
  decide +kernel

/-! ### Ticks, reset and load -/

/-- T-TICK-1, first tick: at the boundary the timers fall, and with IPT 1 the tick ends. -/
theorem test_tick_timers :
    (match step (((((State.resetWith ((cfgOf .base false))).setDt 2).setSt 1).withFetchWord 16 0x1200)) with
      | .next t => some (t.dt, t.st, t.soundOn, t.burst)
      | .fault _ => none
      | .refused _ => none) = some (1, 0, false, 1) := by decide +kernel

/-- T-TICK-5: STOP at the boundary. -/
theorem test_tick_stop :
    (match step (((State.resetWith (cfgOf .base false)).setDt 9).setStop ⟨[true], 0⟩) with
      | .next t => some (t.run, t.dt, t.presents)
      | .fault _ => none
      | .refused _ => none) = some (.halted .stopped 0 0x200, 9, 0) := by decide +kernel

/-- T-TICK-3: a draw ends its burst, and the tick is presented. -/
theorem test_draw_ends_burst :
    see (start .base) 0xD011 (fun t => (t.burst, t.presents, t.pc)) = some (0, 1, 0x202) := by
  decide +kernel

/-- T-TICK-4: no pulse on a halting tick. -/
theorem test_halt_no_present :
    see (start .base) 0x0000 (fun t => (t.presents, t.failed)) = some (0, true) := by decide +kernel

/-- T-RST-1 and S-1. -/
theorem test_reset_font :
    ((State.resetWith (cfgOf .base false)).memRead 0x050, (State.resetWith (cfgOf .base false)).memRead 0x09F,
      (State.resetWith (cfgOf .base false)).memRead 0x0A0, (State.resetWith (cfgOf .base false)).memRead 0x200) =
      (0xF0, 0x80, 0, 0) := by decide +kernel

/-- T-RST-3. -/
theorem test_load :
    (match (State.resetWith (cfgOf .base false)).load [0xA0, 0x50, 0xD0, 0x15] with
      | .next t => some (t.memRead 0x200, t.memRead 0x203, t.memRead 0x204)
      | .fault _ => none
      | .refused _ => none) = some (0xA0, 0x15, 0) := by decide +kernel

/-- T-RST-5: 3585 bytes are refused. -/
theorem test_load_too_long (s : State) :
    s.load (List.replicate 3585 0) = .refused (.romTooLong 3585) := by
  rw [State.load, List.length_replicate, if_neg (by decide)]

/-- A write of the byte the reset image holds removes the entry, so that equal memories are equal. -/
theorem test_memory_canonical :
    (((start .base).memWrite 0x050 0x11).memWrite 0x1050 0xF0).mem = [] := by decide +kernel

/-- The reset machine runs the word that the host places, whatever the free values are. -/
theorem test_reset_runs :
    (match step (State.reset.withFetchWord 16 0x6A7F) with
      | .next t => some (t.readV 0xA, t.pc)
      | .fault _ => none
      | .refused _ => none) = some (0x7F, 0x202) := by decide +kernel

/-! ### Witnesses: for each statement with hypotheses, a concrete input that meets them all -/

/-- What is seen of the state after one step. -/
def look {α : Type} (s : State) (f : State → α) : Option α :=
  match step s with
  | .next t => some (f t)
  | .fault _ => none
  | .refused _ => none

theorem look_some {α : Type} {s : State} {f : State → α} {a : α} (h : look s f = some a) :
    ∃ t, step s = .next t ∧ f t = a := by
  unfold look at h
  split at h
  · rename_i t e; exact ⟨t, e, Option.some.inj h⟩
  · cases h
  · cases h

theorem witness_DecodeOfEncodeIsTheInstruction :
    (Instr.stf 7).wf .ext = true ∧ (Instr.drw 0xF 0xF 0).wf .base = true ∧
    (Instr.drw 0 1 0xF).wf .ext = true ∧ (Instr.jp 0xFFF#12).wf .base = true := by decide

theorem witness_EncodeOfDecodeIsTheWord :
    decodeWord .ext 0xF785#16 = .ok (.ldf 7) ∧ decodeWord .base 0x00E0#16 = .ok .cls := by decide

/-- A base state about to run 6AFF at 0xFFF, whose second byte is at address 0. -/
def ready : State := ((start .base).setPc 0xFFF).memWriteAll 0xFFF [0x6A, 0xFF]

theorem witness_StepRunsTheDecodedInstruction :
    ready.run = .running ∧ ready.wait = .none ∧ ready.stopsNow = false ∧
    decodeWord ready.cfg.variant
      (ready.memRead ready.pc.toNat ++ ready.memRead (ready.pc.toNat + 1)) =
      .ok (.ldImm 0xA 0xFF#8) := by decide +kernel

theorem witness_IllegalWordHaltsPrecisely :
    (start .ext).run = .running ∧ (start .ext).wait = .none ∧ (start .ext).stopsNow = false ∧
    decodeWord (start .ext).cfg.variant (start .ext).fetchWord = .error .unlistedSys := by
  decide +kernel

theorem witness_OnlyAHaltedMachineStops :
    ((start .base).setRun (.halted .exit 0x00FD 0x20E)).run = .halted .exit 0x00FD 0x20E ∧
    (start .base).run = .running := ⟨rfl, rfl⟩

/-- The four causes, each from a running state. -/
theorem witness_EveryHaltHasItsCause :
    (∃ t, step (((State.resetWith (cfgOf .base false))).setStop ⟨[true], 0⟩) = .next t ∧
      t.run = .halted .stopped 0 0x200) ∧
    (∃ t, step (start .base) = .next t ∧ t.run = .halted .decode 0 0x202) ∧
    (∃ t, step ((start .base).withFetchWord 16 0x00EE) = .next t ∧
      t.run = .halted .stackUnderflow 0x00EE 0x202) ∧
    (∃ t, step ((start .ext).withFetchWord 16 0x00FD) = .next t ∧
      t.run = .halted .exit 0x00FD 0x202) :=
  ⟨look_some (by decide +kernel), look_some (by decide +kernel), look_some (by decide +kernel),
    look_some (by decide +kernel)⟩

theorem witness_StopIsSeenAtBoundariesOnly :
    ((State.resetWith (cfgOf .ext false)).setStop ⟨[true], 0⟩).run = .running ∧
    ((State.resetWith (cfgOf .ext false)).setStop ⟨[true], 0⟩).burst = 0 ∧
    ((State.resetWith (cfgOf .ext false)).setStop ⟨[true], 0⟩).stopLevel = true ∧
    (start .ext).burst ≠ 0 := by decide

theorem witness_TimersTickOncePerTick :
    (State.resetWith (cfgOf .base false)).burst = 0 ∧ (start .base).burst ≠ 0 := by decide

/-- At a boundary and within a tick, with timers at 0 and at 255. -/
theorem witness_TimersChangeOnlyAtBoundaries :
    (∃ t, step ready = .next t ∧ t.readV 0xA = 0xFF) ∧ ready.stopsNow = false ∧
    decodeWord ready.cfg.variant ready.fetchWord = .ok (.ldImm 0xA 0xFF#8) ∧
    (∃ t, step (((ready.setBurst 0).setStop ⟨[false], 0⟩).setDt 0xFF) = .next t ∧
      t.dt = 0xFE ∧ t.st = 0) ∧
    (((ready.setBurst 0).setStop ⟨[false], 0⟩).setDt 0xFF).stopsNow = false := by
  refine ⟨look_some (by decide +kernel), by decide +kernel, by decide +kernel, ?_, by decide +kernel⟩
  obtain ⟨t, h, e⟩ := look_some (s := ((ready.setBurst 0).setStop ⟨[false], 0⟩).setDt 0xFF)
    (f := fun t => (t.dt, t.st)) (a := (0xFE, 0)) (by decide +kernel)
  exact ⟨t, h, (Prod.mk.inj e).1, (Prod.mk.inj e).2⟩

theorem witness_YieldsInExactlyThreeCases :
    (start .base).yielded = false ∧ ∃ t, coreStep (start .base) = .next t :=
  ⟨rfl, coreStep_next _⟩

/-- The three ways out of a step: a yield, a step within the budget, a halt. -/
theorem witness_BurstEndsOnYieldOrBudget :
    ready.run = .running ∧ ready.stopsNow = false ∧ (∃ u, coreStep ready.enterStep = .next u) ∧
    (∃ t, step ready = .next t ∧ t.burst = 2) ∧
    (∃ t, step (ready.setBurst 4) = .next t ∧ t.burst = 0) ∧
    (∃ t, step ((start .base).withFetchWord 16 0xD010) = .next t ∧ t.burst = 0) ∧
    (∃ t, step (start .base) = .next t ∧ t.isRunning = false) :=
  ⟨rfl, rfl, coreStep_next _, look_some (by decide +kernel), look_some (by decide +kernel),
    look_some (by decide +kernel), look_some (by decide +kernel)⟩

theorem witness_EveryTickEndsWithinItsBudget :
    (start .base).run = .running ∧ (start .base).burst < (start .base).cfg.ipt ∧
    ((start .base).setBurst 4).burst < ((start .base).setBurst 4).cfg.ipt := by decide

theorem witness_InvariantHoldsAtReset : (cfgOf .base true).wf = true ∧ (cfgOf .ext false).wf = true := by
  decide

theorem witness_EveryStepKeepsTheInvariant :
    (start .base).Inv ∧ ∃ t, step ((start .base)) = .next t ∧ t.pc = 0x202 :=
  ⟨⟨rfl, by decide, by decide, fun x y _ => pixel_blankScreen x y, fun _ => rfl, fun _ => rfl⟩,
    look_some (by decide +kernel)⟩

theorem witness_NoStepChangesTheConfiguration : ∃ t, step ready = .next t ∧ t.pc = 0x1001 :=
  look_some (by decide +kernel)

theorem witness_NoInstructionReadsTheSoundTimer :
    (∀ x, Instr.getdt 3 ≠ .setst x) ∧ ∃ x, Instr.setst 3 = .setst x :=
  ⟨fun _ => Instr.noConfusion, 3, rfl⟩

theorem witness_ExtendedOnlyFormsHaltInBase :
    (start .base).cfg.variant = .base ∧ (Instr.scd 0).wf .base = false ∧
    (∀ x y, Instr.scd 0 ≠ .drw16 x y) ∧ (Instr.stf 0xF).wf .base = false ∧
    (∀ x y, Instr.stf 0xF ≠ .drw16 x y) :=
  ⟨rfl, rfl, fun _ _ => Instr.noConfusion, rfl, fun _ _ => Instr.noConfusion⟩

/-- The longest ROM that fits, and the shortest that does not. -/
theorem witness_LoadCopiesTheRom :
    (List.replicate 3584 (0xA5 : Byte)).length ≤ 3584 ∧ 3584 < (List.replicate 3585 (0xA5 : Byte)).length := by
  rw [List.length_replicate, List.length_replicate]; decide

theorem witness_StoredBytesAreFetchedBigEndian :
    ((0xF : Reg)).val = (0xE : Reg).val + 1 ∧ (0xF : Reg) ≤ 0xF := by decide

theorem witness_ReturnPopsTheStack :
    ((start .base).setStk [0x202, 0x30A]).stk = [0x202] ++ [0x30A] := rfl

theorem witness_ReturnOnEmptyStackHalts : (start .base).stk = [] := rfl

theorem witness_ReturnUndoesCall :
    ∃ t, exec (.call 0x300#12) (start .base) = .next t ∧
      ((start .ext).setStk [0x200]).stk = t.stk := ⟨_, rfl, rfl⟩

theorem witness_RegisterSkips : (0x1#4 ≠ 0x0#4) ∧ (0xF#4 ≠ 0x0#4) := by decide

theorem witness_JumpWithOffset :
    (0xF : Reg).val = (0xFFF#12).toNat / 256 ∧ (0 : Reg).val = (0x0FF#12).toNat / 256 := by decide

theorem witness_ExitEndsTheRun :
    (start .ext).cfg.variant = .ext ∧ (start .base).cfg.variant = .base := ⟨rfl, rfl⟩

theorem witness_GlyphAddresses :
    (start .ext).cfg.variant = .ext ∧ (start .base).cfg.variant = .base := ⟨rfl, rfl⟩

theorem witness_ScrollDownMovesRows :
    (start .ext).cfg.variant = .ext ∧ (start .base).cfg.variant = .base := ⟨rfl, rfl⟩

theorem witness_SidewaysScrollsMoveColumns :
    (start .ext).cfg.variant = .ext ∧ (start .base).cfg.variant = .base := ⟨rfl, rfl⟩

theorem witness_ResolutionSwitchClears :
    (start .ext).cfg.variant = .ext ∧ (start .base).cfg.variant = .base := ⟨rfl, rfl⟩

theorem witness_LargeDrawFlipsTheSpriteBits :
    (start .ext).cfg.variant = .ext ∧ (start .base).cfg.variant = .base := ⟨rfl, rfl⟩

theorem witness_LogicalOperations : (14 : Reg) ≠ 15 := by decide

/-- A carry and none, at the boundary 256 and 255. -/
theorem witness_AddSetsTheCarry :
    255 < (((start .base).writeV 0 0xFF).readV 0).toNat + (((start .base).writeV 1 1).readV 1).toNat ∧
    ¬ 255 < (((start .base).writeV 0 0xFE).readV 0).toNat +
      (((start .base).writeV 1 1).readV 1).toNat := by decide +kernel

/-- No borrow on equal operands, and a borrow. -/
theorem witness_SubtractSetsNoBorrow :
    ((start .base).readV 1).toNat ≤ ((start .base).readV 0).toNat ∧
    ¬ (((start .base).writeV 1 1).readV 1).toNat ≤ (((start .base).writeV 1 1).readV 0).toNat := by
  decide +kernel

theorem witness_ShiftsTakeTheirBitOut :
    (0x81#8 = if (start .base true).cfg.variant = .base ∧ (start .base true).cfg.isOlder = true
      then ((start .base true).writeV 2 0x81).readV 2 else ((start .base true).writeV 2 0x81).readV 1) ∧
    (0x81#8).toNat % 2 = 1 ∧ 128 ≤ (0x80#8).toNat ∧ ¬ 128 ≤ (0x7F#8).toNat := by decide +kernel

/-- A sum of exactly 0xFFF and of 0x1000. -/
theorem witness_AddToIndexWraps :
    0xFFF < ((start .base).setI 0xF01).i.toNat + (((start .base).writeV 2 0xFF).readV 2).toNat ∧
    ((start .base).setI 0xF00).i.toNat + (((start .base).writeV 2 0xFF).readV 2).toNat ≤ 0xFFF ∧
    (start .base).cfg.fx1eVfElse = .keep ∧
    (State.resetWith { cfgOf .base false with fx1eVfElse := .clear }).cfg.fx1eVfElse = .clear := by
  decide +kernel

/-- The registers at the edges of a spill or fill of V0 to VX. -/
theorem witness_SpillStoresTheRegisters :
    ((0 : Reg) ≤ 0) ∧ ((0xF : Reg) ≤ 0xF) ∧ ((0 : Reg) < 1) := by decide

theorem witness_RplSpillAndFill :
    (start .ext).cfg.variant = .ext ∧ (7 : Reg).val ≤ 7 ∧ 8 ≤ (8 : Reg).val ∧
    (start .base).cfg.variant = .base ∧ (7 : Reg).val = (7 : Fin 8).val ∧ (7 : Reg) ≤ 7 := by decide

/-- In EXT from N = 1, in BASE also N = 0. -/
theorem witness_DrawFlipsTheSpriteBits :
    ¬ ((start .ext).cfg.variant = .ext ∧ (1 : Fin 16) = 0) ∧
    ¬ ((start .base).cfg.variant = .ext ∧ (0 : Fin 16) = 0) ∧
    ¬ ((start .ext).cfg.variant = .ext ∧ (15 : Fin 16) = 0) := by decide

/-- A blank screen on which the first draw lights a pixel. -/
theorem witness_DrawingTwiceRestoresTheScreen :
    (0 : Reg) ≠ 15 ∧ (14 : Reg) ≠ 15 ∧ ((start .base).setI 0x050).fb = blankScreen ∧
    ((((start .base).setI 0x050).drawSmall 0 14 5)).fb ≠ blankScreen := by decide +kernel

theorem witness_WaitKeyRewindsOrTakesTheKey :
    ((start .base).setKeys ⟨[0], 0⟩).keyLevels = 0 ∧
    ((start .base).setKeys ⟨[0x8000], 0⟩).keyLevels.getLsbD (15 : Fin 16).val = true ∧
    (∀ j : Fin 16, j < 15 →
      ((start .base).setKeys ⟨[0x8000], 0⟩).keyLevels.getLsbD j.val = false) := by decide +kernel

theorem witness_ReleasePollWaitsForItsKey :
    ((start .base).setWait (.release 15)).wait = .release 15 ∧
    ((start .base).setKeys ⟨[0x8000], 0⟩).keyLevels.getLsbD (15 : Fin 16).val = true ∧
    ((start .base).setKeys ⟨[0x7FFF], 0⟩).keyLevels.getLsbD (15 : Fin 16).val = false := by
  decide +kernel

end Sys2Proof.Tests
end

section
/-! The frame of every instruction and of the step (00_scope.md R5, 10_state.md R10), composed
from the frames of the state's operations. -/

namespace Sys2Proof.Machine

/-! ### The frame of each meaning made of several operations -/

/-- Frames compose, each listing its own changes. -/
theorem KeepsAllBut.append {l m : List Part} {s t u : State} (h : KeepsAllBut l s t)
    (g : KeepsAllBut m t u) : KeepsAllBut (l ++ m) s u :=
  (h.mono fun _ => List.mem_append_left m).trans (g.mono fun _ => List.mem_append_right l)

theorem keeps_switchResolution (s : State) (h : Bool) :
    KeepsAllBut [.fb, .hires] s (s.switchResolution h) :=
  ((keeps_setHires s h).append (keeps_setFb _ _)).mono (by decide)

theorem keeps_awaitKey (s : State) (x : Reg) (k : Option (Fin 16)) :
    KeepsAllBut [.pc, .v, .wait] s (s.awaitKey x k) := by
  cases k with
  | none => exact (keeps_setPc s _).mono (by decide)
  | some k => exact ((keeps_writeV s _ _).append (keeps_setWait _ _)).mono (by decide)

/-- RET pops and jumps, or halts on an empty stack (R50). -/
theorem keeps_execRet {s t : State} (h : execRet s = .next t) :
    KeepsAllBut [.pc, .stk, .run] s t := by
  unfold execRet at h
  split at h
  · cases h; exact ((keeps_setStk s _).append (keeps_setPc _ _)).mono (by decide)
  · cases h; exact (keeps_setRun s _).mono (by decide)

/-- Both draws end in `drawPixels`, whichever of them the draw word selects (R96, R97). -/
theorem keeps_draw (s : State) (large : Prop) [Decidable large] (x y : Reg) (n : Nat) :
    KeepsAllBut [.fb, .v, .yielded] s (if large then s.drawLarge x y else s.drawSmall x y n) := by
  split
  · exact keeps_drawPixels s _
  · exact keeps_drawPixels s _

/-- FX75 and FX85 have their effect, or raise the decode error: in BASE and past V7 (R79, R80). -/
theorem keeps_ifLowX {l : List Part} {i : Instr} {x : Reg} {op : Word} {s u t : State}
    (h : (if x.val ≤ 7 then s.ifExt i u else .next (s.raiseDecodeError op)) = .next t)
    (hu : KeepsAllBut l s u) : KeepsAllBut (.run :: l) s t := by
  split at h
  · exact keeps_ifExt h hu
  · cases h
    exact (keeps_raiseDecodeError s op).mono (by simp)

/-! ### The frame of every instruction and of the step -/

/-- An instruction changes only what the table `mayChange` gives it. -/
theorem exec_keeps {i : Instr} {s t : State} (h : exec i s = .next t) :
    KeepsAllBut (mayChange i) s t := by
  cases i with
  | cls => cases h; exact keeps_setFb s _
  | ret => exact keeps_execRet h
  | scd n => exact (keeps_ifExt h (keeps_setFb s _)).mono (by simp [mayChange])
  | scr => exact (keeps_ifExt h (keeps_setFb s _)).mono (by decide)
  | scl => exact (keeps_ifExt h (keeps_setFb s _)).mono (by decide)
  | exit => exact (keeps_ifExt h (keeps_setRun s _)).mono (by decide)
  | low => exact (keeps_ifExt h (keeps_switchResolution s _)).mono (by decide)
  | high => exact (keeps_ifExt h (keeps_switchResolution s _)).mono (by decide)
  | jp nnn => cases h; exact keeps_setPc s _
  | call nnn => cases h; exact ((keeps_setStk s _).append (keeps_setPc _ _)).mono (by simp [mayChange])
  | seImm x nn => cases h; exact keeps_skipIf s _
  | sneImm x nn => cases h; exact keeps_skipIf s _
  | seReg x y => cases h; exact keeps_skipIf s _
  | sneReg x y => cases h; exact keeps_skipIf s _
  | ldImm x nn => cases h; exact keeps_writeV s _ _
  | addImm x nn => cases h; exact keeps_writeV s _ _
  | ldReg x y => cases h; exact keeps_writeV s _ _
  | orReg x y => cases h; exact keeps_writeLogic s _ _
  | andReg x y => cases h; exact keeps_writeLogic s _ _
  | xorReg x y => cases h; exact keeps_writeLogic s _ _
  | addReg x y => cases h; exact keeps_writeResult s _ _ _
  | sub x y => cases h; exact keeps_writeResult s _ _ _
  | shr x y => cases h; exact keeps_writeResult s _ _ _
  | subn x y => cases h; exact keeps_writeResult s _ _ _
  | shl x y => cases h; exact keeps_writeResult s _ _ _
  | ldIdx nnn => cases h; exact keeps_setI s _
  | jpo nnn => cases h; exact keeps_setPc s _
  | rnd x nn =>
    cases h
    exact ((keeps_setRand s _).append (keeps_writeV _ _ _)).mono (by simp [mayChange])
  | drw x y n => cases h; exact keeps_draw s _ x y _
  | drw16 x y => cases h; exact keeps_draw s _ x y _
  | skp x => cases h; exact ((keeps_setKeys s _).append (keeps_skipIf _ _)).mono (by simp [mayChange])
  | sknp x => cases h; exact ((keeps_setKeys s _).append (keeps_skipIf _ _)).mono (by simp [mayChange])
  | getdt x => cases h; exact keeps_writeV s _ _
  | wkey x =>
    cases h
    exact (((keeps_setKeys s _).append (keeps_awaitKey _ _ _)).append
      (keeps_setYielded _ _)).mono (by simp [mayChange])
  | setdt x => cases h; exact keeps_setDt s _
  | setst x => cases h; exact keeps_setSt s _
  | addIdx x => cases h; exact (keeps_setI s _).append (keeps_writeIndexFlag _ _)
  | font x => cases h; exact keeps_setI s _
  | fonthi x => exact (keeps_ifExt h (keeps_setI s _)).mono (by simp [mayChange])
  | bcd x => cases h; exact keeps_memWriteAll s _ _
  | stm x => cases h; exact (keeps_spill s _).append (keeps_advanceIndex _ _)
  | ldm x => cases h; exact (keeps_fill s _).append (keeps_advanceIndex _ _)
  | stf x => exact (keeps_ifLowX h (keeps_spillRpl s _)).mono (by simp [mayChange])
  | ldf x => exact (keeps_ifLowX h (keeps_fillRpl s _)).mono (by simp [mayChange])

/-! ### The configuration -/

/-- A frame that does not list the configuration keeps it. -/
theorem KeepsAllBut.cfg_eq {l : List Part} {s t : State} (h : KeepsAllBut l s t)
    (hl : .cfg ∉ l) : t.cfg = s.cfg := h .cfg hl

/-- No instruction is given the configuration to write (R5). -/
theorem cfg_notMem_mayChange (i : Instr) : .cfg ∉ mayChange i := by
  cases i <;> simp [mayChange]

theorem coreStep_cfg {s t : State} (h : coreStep s = .next t) : t.cfg = s.cfg := by
  rcases coreStep_cases s with ⟨k, -, hs⟩ | ⟨-, i, -, hs⟩ | ⟨-, e, -, hs⟩
  · cases hs.symm.trans h
    exact (keeps_releasePoll s k).cfg_eq (by decide)
  · calc t.cfg = s.advancePc.cfg := (exec_keeps (hs.symm.trans h)).cfg_eq (cfg_notMem_mayChange i)
      _ = s.cfg := setPc_cfg ..
  · cases hs.symm.trans h
    rfl

theorem finishStep_cfg (s : State) : s.finishStep.cfg = s.cfg :=
  (keeps_finishStep s).cfg_eq (by decide)

/-- A machine that has taken a step was running (R39, R108). -/
theorem run_of_step_next {s t : State} (h : step s = .next t) : s.run = .running := by
  cases hr : s.run with
  | running => rfl
  | halted c op pc => simp [step, hr] at h

end Sys2Proof.Machine
end

section
/-! Settled obligations of 00_scope.md. -/

namespace Sys2Proof.Machine

/-- Settles O17: a step is a stop, or the spec's Step() between the bookkeeping of the tick, and the
frame of each leaves the configuration out. -/
theorem noStepChangesTheConfiguration : Obligations.NoStepChangesTheConfiguration := by
  intro s t h
  rcases step_cases (run_of_step_next h) with ⟨-, hs⟩ | ⟨-, u, hu, hs⟩
  · cases hs.symm.trans h
    rfl
  · cases hs.symm.trans h
    calc u.finishStep.cfg = u.cfg := finishStep_cfg u
      _ = s.enterStep.cfg := coreStep_cfg hu
      _ = s.cfg := enterStep_cfg s

end Sys2Proof.Machine
end

section
/-! The invariant of the machine (10_state.md R14, R18 to R20; 60_exceptions.md R121): which updates
keep it, and that every instruction and both ends of a step do. -/

namespace Sys2Proof.Machine

/-! ### Updates of one piece of state -/

/-- The pieces of state that the invariant speaks of. -/
def State.vital (s : State) :
    Config × Memory × Word × Nat × Framebuffer × Bool × Vector Byte 8 :=
  (s.cfg, s.mem, s.i, s.burst, s.fb, s.hires, s.rpl)

section
variable {s t : State}

/-- An update of any other piece of state keeps the invariant. -/
theorem State.Inv.congr (hs : s.Inv) (h : t.vital = s.vital) : t.Inv := by
  simp only [State.vital, Prod.mk.injEq] at h
  obtain ⟨hcfg, hmem, hi, hburst, hfb, hhires, hrpl⟩ := h
  have hdark := hs.dark
  unfold State.darkOutside State.width State.height at hdark
  refine ⟨?_, ?_, ?_, ?_, ?_, ?_⟩
  · rw [hcfg, hmem]; exact hs.memory
  · rw [hi]; exact hs.index
  · rw [hcfg, hburst]; exact hs.burst
  · unfold State.darkOutside State.width State.height
    rw [hfb, hhires]; exact hdark
  · rw [hcfg, hhires]; exact hs.baseMode
  · rw [hcfg, hrpl]; exact hs.baseRpl

theorem State.Inv.setMem (hs : s.Inv) {m : Memory} (hm : Memory.wf (resetByte s.cfg) m = true) :
    (s.setMem m).Inv := { hs with memory := hm }

theorem State.Inv.setI (hs : s.Inv) {w : Word} (hw : w.toNat < memSize) : (s.setI w).Inv :=
  { hs with index := hw }

theorem State.Inv.setFb (hs : s.Inv) {f : Framebuffer}
    (hf : ∀ x y, s.width ≤ x ∨ s.height ≤ y → pixel f x y = false) : (s.setFb f).Inv :=
  { hs with dark := hf }

theorem State.Inv.setBurst (hs : s.Inv) {n : Nat} (hn : n < s.cfg.ipt) : (s.setBurst n).Inv :=
  { hs with burst := hn }

/-! ### Shared operations -/

theorem State.Inv.writeLogic (hs : s.Inv) (x : Reg) (r : Byte) : (s.writeLogic x r).Inv := by
  obtain ⟨w, h⟩ := writeLogic_frame s x r; rw [h]; exact hs.congr rfl

theorem State.Inv.writeIndexFlag (hs : s.Inv) (o : Bool) : (s.writeIndexFlag o).Inv := by
  obtain ⟨w, h⟩ := writeIndexFlag_frame s o; rw [h]; exact hs.congr rfl

theorem State.Inv.skipIf (hs : s.Inv) (c : Bool) : (s.skipIf c).Inv := by
  obtain ⟨w, h⟩ := skipIf_frame s c; rw [h]; exact hs.congr rfl

theorem State.Inv.fill (hs : s.Inv) (n : Nat) : (s.fill n).Inv := by
  obtain ⟨w, h⟩ := fill_frame s n; rw [h]; exact hs.congr rfl

theorem State.Inv.fillRpl (hs : s.Inv) (n : Nat) : (s.fillRpl n).Inv := by
  obtain ⟨w, h⟩ := fillRpl_frame s n; rw [h]; exact hs.congr rfl

theorem State.Inv.spillRpl (hs : s.Inv) (hext : s.cfg.extOps = true) (n : Nat) :
    (s.spillRpl n).Inv := by
  obtain ⟨w, h⟩ := spillRpl_frame s n
  rw [h]
  exact { hs with baseRpl := fun hbase => absurd (hext.symm.trans hbase) (by decide) }

theorem State.Inv.memWriteAll (hs : s.Inv) (a : Nat) (ws : List Byte) :
    (s.memWriteAll a ws).Inv := by
  have hwf := memWriteAll_wf a ws hs.memory
  obtain ⟨m, h⟩ := memWriteAll_frame s a ws
  rw [h] at hwf ⊢
  exact hs.setMem hwf

theorem State.Inv.spill (hs : s.Inv) (n : Nat) : (s.spill n).Inv := by
  have hwf := spill_wf n hs.memory
  obtain ⟨m, h⟩ := spill_frame s n
  rw [h] at hwf ⊢
  exact hs.setMem hwf

theorem State.Inv.advanceIndex (hs : s.Inv) (n : Nat) : (s.advanceIndex n).Inv := by
  unfold State.advanceIndex
  split
  · exact hs.setI (indexWord_lt _)
  · exact hs

theorem State.Inv.sampledKeys (hs : s.Inv) : s.sampledKeys.Inv := hs.congr rfl

theorem State.Inv.awaitKey (hs : s.Inv) (x : Reg) (k : Option (Fin 16)) : (s.awaitKey x k).Inv := by
  cases k with
  | none => exact hs.congr rfl
  | some k => exact hs.congr rfl

theorem State.Inv.releasePoll (hs : s.Inv) (k : Fin 16) : (s.releasePoll k).Inv := by
  unfold State.releasePoll
  split
  · exact hs.congr rfl
  · exact hs.congr rfl

/-- In BASE an extended-only form raises the decode error, so its effect matters in EXT alone. -/
theorem State.Inv.ifExt (hs : s.Inv) {i : Instr} {u : State} (h : s.ifExt i u = .next t)
    (hu : s.cfg.extOps = true → u.Inv) : t.Inv := by
  unfold State.ifExt at h
  split at h
  · next hext => cases h; exact hu hext
  · cases h; exact hs.congr rfl

/-- FX75 and FX85 have their effect in EXT with X at most 7, or raise the decode error (R79, R80). -/
theorem State.Inv.ifLowX (hs : s.Inv) {i : Instr} {x : Reg} {op : Word} {u : State}
    (h : (if x.val ≤ 7 then s.ifExt i u else .next (s.raiseDecodeError op)) = .next t)
    (hu : s.cfg.extOps = true → u.Inv) : t.Inv := by
  split at h
  · exact hs.ifExt h hu
  · cases h; exact hs.congr rfl

/-! ### The screen -/

theorem State.Inv.setFb_blank (hs : s.Inv) : (s.setFb blankScreen).Inv :=
  hs.setFb fun x y _ => pixel_blankScreen x y

/-- A scroll writes the active region only, so what was dark outside it stays dark. -/
theorem State.Inv.setFb_mapActiveRows (hs : s.Inv) (new : Nat → Row) :
    (s.setFb (mapActiveRows s.width s.height s.fb new)).Inv := by
  refine hs.setFb fun x y hout => ?_
  have hin : ¬ (x < s.width ∧ y < s.height) := by omega
  rw [pixel_mapActiveRows s.width s.height s.fb new x y (height_le s), if_neg hin]
  exact hs.dark x y hout

/-- A draw flips pixels of the active region only (R96, R97). -/
theorem State.Inv.drawPixels (hs : s.Inv) {ps : List (Nat × Nat)} (hd : ps.Nodup)
    (hin : ∀ p ∈ ps, p.1 < s.width ∧ p.2 < s.height) : (s.drawPixels ps).Inv := by
  have hfb : (s.setFb (flipAll ps s.fb).1).Inv := by
    refine hs.setFb fun x y hout => ?_
    have hnot : (x, y) ∉ ps := fun hp => by
      obtain ⟨hx, hy⟩ := hin (x, y) hp
      omega
    rw [pixel_flipAll ps s.fb hd (inside_buffer hin), hs.dark x y hout]
    simp [hnot]
  exact hfb.congr rfl

/-- Both draws flip pixels of the active region, whichever of them the draw word selects. -/
theorem State.Inv.draw (hs : s.Inv) (large : Prop) [Decidable large] (x y : Reg) (n : Nat) :
    (if large then s.drawLarge x y else s.drawSmall x y n).Inv := by
  split
  · exact hs.drawPixels (largePixels_nodup _ _ _) (largePixels_inside _ _ _)
  · exact hs.drawPixels (smallPixels_nodup _ _ _ _) (smallPixels_inside _ _ _ _)

/-- Switching the resolution clears the screen; to the high one it may switch in EXT only. -/
theorem State.Inv.switchResolution (hs : s.Inv) (hext : s.cfg.extOps = true) (h : Bool) :
    (s.switchResolution h).Inv :=
  { hs with
    dark := fun x y _ => pixel_blankScreen x y
    baseMode := fun hbase => absurd (hext.symm.trans hbase) (by decide) }

/-! ### Addresses the index register is given -/

theorem zextAddr_lt (nnn : BitVec 12) : (zextAddr nnn).toNat < memSize := by
  have := nnn.isLt
  simp only [zextAddr, BitVec.toNat_setWidth, memSize]
  omega

theorem glyphLo_lt (d : Fin 16) : (glyphLo d).toNat < memSize := by
  revert d; decide

theorem glyphHi_lt (d : Fin 16) : (glyphHi d).toNat < memSize := by
  revert d; decide

/-! ### Instructions and steps -/

theorem State.Inv.execRet (hs : s.Inv) (h : execRet s = .next t) : t.Inv := by
  unfold Sys2Proof.Machine.execRet at h
  split at h
  · cases h; exact hs.congr rfl
  · cases h; exact hs.congr rfl

/-- Every instruction keeps the invariant. -/
theorem State.Inv.exec {i : Instr} (hs : s.Inv) (h : exec i s = .next t) : t.Inv := by
  cases i with
  -- These write nothing that the invariant speaks of.
  | jp | call | jpo | ldImm | addImm | ldReg | addReg | sub | shr | subn | shl | rnd | getdt
  | setdt | setst => cases h; exact hs.congr rfl
  | ret => exact hs.execRet h
  | exit => exact hs.ifExt h fun _ => hs.congr rfl
  | seImm | sneImm | seReg | sneReg => cases h; exact hs.skipIf _
  | skp | sknp => cases h; exact hs.sampledKeys.skipIf _
  | orReg | andReg | xorReg => cases h; exact hs.writeLogic _ _
  | wkey x =>
    cases h
    have hwait := hs.sampledKeys.awaitKey x (currentKey s.keyLevels)
    exact hwait.congr rfl
  -- The screen.
  | cls => cases h; exact hs.setFb_blank
  | scd | scr | scl => exact hs.ifExt h fun _ => hs.setFb_mapActiveRows _
  | low | high => exact hs.ifExt h fun hext => hs.switchResolution hext _
  | drw | drw16 => cases h; exact hs.draw _ _ _ _
  -- The index register.
  | ldIdx nnn => cases h; exact hs.setI (zextAddr_lt nnn)
  | addIdx x => cases h; exact (hs.setI (indexWord_lt _)).writeIndexFlag _
  | font x => cases h; exact hs.setI (glyphLo_lt _)
  | fonthi x => exact hs.ifExt h fun _ => hs.setI (glyphHi_lt _)
  -- Memory and the RPL registers.
  | bcd x => cases h; exact hs.memWriteAll _ _
  | stm x => cases h; exact (hs.spill _).advanceIndex _
  | ldm x => cases h; exact (hs.fill _).advanceIndex _
  | stf x => exact hs.ifLowX h fun hext => hs.spillRpl hext _
  | ldf x => exact hs.ifLowX h fun _ => hs.fillRpl _

theorem State.Inv.coreStep (hs : s.Inv) (h : coreStep s = .next t) : t.Inv := by
  have hpc : s.advancePc.Inv := hs.congr rfl
  rcases coreStep_cases s with ⟨k, -, hc⟩ | ⟨-, i, -, hc⟩ | ⟨-, e, -, hc⟩
  · cases hc.symm.trans h; exact hs.releasePoll k
  · exact hpc.exec (hc.symm.trans h)
  · cases hc.symm.trans h; exact hpc.congr rfl

theorem State.Inv.enterStep (hs : s.Inv) : s.enterStep.Inv := by
  obtain ⟨f, d, b, h⟩ := enterStep_frame s; rw [h]; exact hs.congr rfl

/-- The count goes up only while the burst goes on, and then the budget is not yet reached. -/
theorem burst_succ_lt_of_goes_on (h : s.endsBurst = false) : s.burst + 1 < s.cfg.ipt := by
  simp only [State.endsBurst, Bool.or_eq_false_iff, decide_eq_false_iff_not] at h
  exact Nat.not_le.1 h.2

theorem State.Inv.finishStep (hs : s.Inv) : s.finishStep.Inv := by
  unfold State.finishStep
  split
  · exact hs
  · have hburst : (s.setBurst (if s.endsBurst then 0 else s.burst + 1)).Inv := by
      refine hs.setBurst ?_
      split
      · exact Nat.zero_lt_of_lt hs.burst
      · next h => exact burst_succ_lt_of_goes_on (Bool.eq_false_iff.2 h)
    exact hburst.congr rfl

end

/-! ### Reset -/

/-- The invariant holds at reset of every machine with a budget of at least 1. -/
theorem resetWith_inv {c : Config} (h : c.wf = true) : (State.resetWith c).Inv where
  memory := reset_memory_wf c
  index := Nat.zero_lt_succ _
  burst := of_decide_eq_true h
  dark := fun x y _ => pixel_blankScreen x y
  baseMode := fun _ => rfl
  baseRpl := fun _ => rfl

theorem standard_wf : Config.standard.wf = true :=
  decide_eq_true (Nat.le_add_left 1 Config.freeBudget)

end Sys2Proof.Machine
end

section
/-! The timers within a step (10_state.md R17; 60_exceptions.md R117): what the tick leaves in them, and
which steps leave that alone. -/

namespace Sys2Proof.Machine

/-- A timer goes down by one and stops at zero (R117). -/
theorem timerDown_toNat (b : Byte) : (timerDown b).toNat = b.toNat - 1 := by
  unfold timerDown
  split
  · next h => subst h; rfl
  · bv_omega

/-- At a boundary the tick begins before the step (R119). -/
theorem enterStep_at_boundary {s : State} (h : s.burst = 0) :
    s.enterStep = s.beginTick.setYielded false := by
  simp [State.enterStep, State.atBoundary, h]

theorem enterStep_within_tick {s : State} (h : s.burst ≠ 0) :
    s.enterStep = s.setYielded false := by
  simp [State.enterStep, State.atBoundary, h]

theorem enterStep_dt (s : State) :
    s.enterStep.dt.toNat = if s.burst = 0 then s.dt.toNat - 1 else s.dt.toNat := by
  split
  · next h => rw [enterStep_at_boundary h]; exact timerDown_toNat s.dt
  · next h => rw [enterStep_within_tick h]; rfl

theorem enterStep_st (s : State) :
    s.enterStep.st.toNat = if s.burst = 0 then s.st.toNat - 1 else s.st.toNat := by
  split
  · next h => rw [enterStep_at_boundary h]; exact timerDown_toNat s.st
  · next h => rw [enterStep_within_tick h]; rfl

/-- FX15 alone writes DT (R17, R106). -/
theorem dt_mem_mayChange {i : Instr} : .dt ∈ mayChange i ↔ ∃ x, i = .setdt x := by
  cases i <;> simp [mayChange]

/-- FX18 alone writes ST (R17, R107). -/
theorem st_mem_mayChange {i : Instr} : .st ∈ mayChange i ↔ ∃ x, i = .setst x := by
  cases i <;> simp [mayChange]

/-- The spec's Step() keeps every piece of state that neither its release poll, nor its fetch and halt,
nor the instruction it decodes may write. -/
theorem coreStep_same {s t : State} {p : Part} (h : coreStep s = .next t)
    (hp : p ∉ [.keys, .yielded, .wait, .run, .pc])
    (hi : ∀ i, decodeWord s.cfg.variant s.fetchWord = .ok i → p ∉ mayChange i) : p.same s t := by
  have hpc : p.same s s.advancePc := (keeps_setPc s _).mono (by decide) p hp
  rcases coreStep_cases s with ⟨k, -, hc⟩ | ⟨-, i, hd, hc⟩ | ⟨-, e, -, hc⟩
  · cases hc.symm.trans h
    exact (keeps_releasePoll s k).mono (by decide) p hp
  · exact Part.same_trans hpc (exec_keeps (hc.symm.trans h) p (hi i hd))
  · cases hc.symm.trans h
    exact Part.same_trans hpc ((keeps_raiseDecodeError s.advancePc _).mono (by decide) p hp)

/-- A step that does not stop keeps, from its entry on, every piece of state that neither Step() nor the
bookkeeping of the burst nor the instruction it decodes may write. -/
theorem step_same {s t : State} {p : Part} (h : step s = .next t) (hgo : s.stopsNow = false)
    (hp : p ∉ [.keys, .yielded, .wait, .run, .pc] ++ [.burst, .presents])
    (hi : ∀ i, decodeWord s.cfg.variant s.fetchWord = .ok i → p ∉ mayChange i) :
    p.same s.enterStep t := by
  obtain ⟨hstop, -⟩ | ⟨-, u, hu, hstep⟩ := step_cases (run_of_step_next h)
  · exact absurd (hgo.symm.trans hstop) (by decide)
  · cases hstep.symm.trans h
    have hcore : p.same s.enterStep u :=
      coreStep_same hu (fun hm => hp (List.mem_append_left _ hm)) (by simpa using hi)
    exact Part.same_trans hcore ((keeps_finishStep u).mono (by decide) p hp)

end Sys2Proof.Machine
end

section
/-! The sound timer and the instructions (10_state.md R17): each operation of an instruction commutes with
the write of another value to ST. -/

namespace Sys2Proof.Machine

section
variable (s : State) (b : Byte)

theorem skipIf_setSt (c : Bool) : (s.setSt b).skipIf c = (s.skipIf c).setSt b := by
  cases c with
  | false => rfl
  | true => rfl

theorem writeLogic_setSt (x : Reg) (r : Byte) :
    (s.setSt b).writeLogic x r = (s.writeLogic x r).setSt b := by
  simp only [State.writeLogic, setSt_cfg, apply_ite (State.setSt · b)]
  rfl

theorem writeIndexFlag_setSt (o : Bool) :
    (s.setSt b).writeIndexFlag o = (s.writeIndexFlag o).setSt b := by
  simp only [State.writeIndexFlag, setSt_cfg]
  split
  · rfl
  · split
    · rfl
    · rfl

theorem memWriteAll_setSt (a : Nat) (ws : List Byte) :
    (s.setSt b).memWriteAll a ws = (s.memWriteAll a ws).setSt b := by
  induction ws generalizing s a with
  | nil => rfl
  | cons w ws ih => exact ih (s.memWrite a w) (a + 1)

theorem spill_setSt (n : Nat) : (s.setSt b).spill n = (s.spill n).setSt b := by
  induction n with
  | zero => rfl
  | succ k ih => simp only [State.spill, ih]; rfl

theorem fill_setSt (n : Nat) : (s.setSt b).fill n = (s.fill n).setSt b := by
  induction n with
  | zero => rfl
  | succ k ih => simp only [State.fill, ih]; rfl

theorem spillRpl_setSt (n : Nat) : (s.setSt b).spillRpl n = (s.spillRpl n).setSt b := by
  induction n with
  | zero => rfl
  | succ k ih => simp only [State.spillRpl, ih]; rfl

theorem fillRpl_setSt (n : Nat) : (s.setSt b).fillRpl n = (s.fillRpl n).setSt b := by
  induction n with
  | zero => rfl
  | succ k ih => simp only [State.fillRpl, ih]; rfl

theorem advanceIndex_setSt (n : Nat) : (s.setSt b).advanceIndex n = (s.advanceIndex n).setSt b := by
  simp only [State.advanceIndex, setSt_cfg, apply_ite (State.setSt · b)]
  rfl

theorem awaitKey_setSt (x : Reg) (k : Option (Fin 16)) :
    (s.setSt b).awaitKey x k = (s.awaitKey x k).setSt b := by
  cases k with
  | none => rfl
  | some k => rfl

theorem ifExt_setSt {i : Instr} {u u' : State} (hu : u' = u.setSt b) :
    (s.setSt b).ifExt i u' = onNext (State.setSt · b) (s.ifExt i u) := by
  subst hu
  simp only [State.ifExt, setSt_cfg, apply_ite (onNext (State.setSt · b))]
  rfl

theorem execRet_setSt : execRet (s.setSt b) = onNext (State.setSt · b) (execRet s) := by
  simp only [execRet, setSt_stk]
  split
  · rfl
  · rfl

theorem draw_setSt (large : Prop) [Decidable large] (x y : Reg) (n : Nat) :
    (if large then (s.setSt b).drawLarge x y else (s.setSt b).drawSmall x y n) =
      (if large then s.drawLarge x y else s.drawSmall x y n).setSt b := by
  split
  · rfl
  · rfl

/-- FX75 and FX85: their effect commutes, and so does the decode error (R79, R80). -/
theorem ifLowX_setSt {i : Instr} {x : Reg} {op : Word} {u u' : State} (hu : u' = u.setSt b) :
    (if x.val ≤ 7 then (s.setSt b).ifExt i u'
      else .next ((s.setSt b).raiseDecodeError op)) =
      onNext (State.setSt · b) (if x.val ≤ 7 then s.ifExt i u else .next (s.raiseDecodeError op)) := by
  split
  · exact ifExt_setSt s b hu
  · rfl

/-- Every instruction but FX18 does the same with another value in ST, and keeps it (R17, R107). -/
theorem exec_setSt {i : Instr} (hi : ∀ x, i ≠ .setst x) :
    exec i (s.setSt b) = onNext (State.setSt · b) (exec i s) := by
  cases i with
  | setst x => exact absurd rfl (hi x)
  -- These are made of record updates alone.
  | cls | jp | call | jpo | ldImm | addImm | ldReg | addReg | sub | shr | subn | shl | rnd | getdt
  | setdt | ldIdx | font => rfl
  | ret => exact execRet_setSt s b
  | scd | scr | scl | exit | low | high | fonthi => exact ifExt_setSt s b rfl
  | seImm | sneImm | seReg | sneReg => exact congrArg _ (skipIf_setSt s b _)
  | skp | sknp => exact congrArg _ (skipIf_setSt s.sampledKeys b _)
  | orReg | andReg | xorReg => exact congrArg _ (writeLogic_setSt s b _ _)
  | drw | drw16 => exact congrArg _ (draw_setSt s b _ _ _ _)
  | wkey x =>
    exact congrArg (fun t => Host.Outcome.next t.yieldStep) (awaitKey_setSt s.sampledKeys b x _)
  | addIdx x => exact congrArg _ (writeIndexFlag_setSt (s.setI _) b _)
  | bcd x => exact congrArg _ (memWriteAll_setSt s b _ _)
  | stm x => simp only [exec, execStm, spill_setSt, advanceIndex_setSt, onNext_next]
  | ldm x => simp only [exec, execLdm, fill_setSt, advanceIndex_setSt, onNext_next]
  | stf x => exact ifLowX_setSt s b (spillRpl_setSt s b _)
  | ldf x => exact ifLowX_setSt s b (fillRpl_setSt s b _)

end

end Sys2Proof.Machine
end

section
/-! Settled obligations of 10_state.md. -/

namespace Sys2Proof.Machine

/-- Settles O15: every piece of the reset state is in range, and IPT of the reset machine is a number
plus 1 (log 3). -/
theorem invariantHoldsAtReset : Obligations.InvariantHoldsAtReset :=
  ⟨fun _ h => resetWith_inv h, resetWith_inv standard_wf⟩

/-- Settles O16: a stop writes nothing that the invariant speaks of; any other step enters, runs the
spec's Step() and does the bookkeeping of the burst, and each of the three keeps it. -/
theorem everyStepKeepsTheInvariant : Obligations.EveryStepKeepsTheInvariant := by
  intro s t hs h
  rcases step_cases (run_of_step_next h) with ⟨-, hstep⟩ | ⟨-, u, hu, hstep⟩
  · cases hstep.symm.trans h
    exact hs.congr rfl
  · cases hstep.symm.trans h
    exact (hs.enterStep.coreStep hu).finishStep

/-- Settles O11: from its entry on a step may write a timer by FX15 or FX18 alone, so both hold what the
entry left in them. -/
theorem timersChangeOnlyAtBoundaries : Obligations.TimersChangeOnlyAtBoundaries := by
  intro s t h hgo hnodt hnost
  have hdt : t.dt = s.enterStep.dt := step_same (p := .dt) h hgo (by decide) fun i hd hmem => by
    obtain ⟨x, rfl⟩ := dt_mem_mayChange.1 hmem
    exact hnodt x hd
  have hst : t.st = s.enterStep.st := step_same (p := .st) h hgo (by decide) fun i hd hmem => by
    obtain ⟨x, rfl⟩ := st_mem_mayChange.1 hmem
    exact hnost x hd
  rw [hdt, hst]
  exact ⟨enterStep_dt s, enterStep_st s⟩

/-- Settles O18: every instruction answers a next state, and the frame of each is its row of the table. -/
theorem everyInstructionChangesOnlyItsOwnState :
    Obligations.EveryInstructionChangesOnlyItsOwnState := by
  intro i s
  obtain ⟨t, h⟩ := exec_next i s
  exact ⟨t, h, exec_keeps h, trivial⟩

/-- Settles O19: every operation of an instruction but FX18 commutes with the write of ST, and FX18
overwrites it. -/
theorem noInstructionReadsTheSoundTimer : Obligations.NoInstructionReadsTheSoundTimer := by
  intro i s b
  refine ⟨exec_setSt s b, ?_⟩
  rintro ⟨x, rfl⟩
  rfl

end Sys2Proof.Machine
end

section
/-! What FX55 leaves in memory, and the word fetched at a cell (20_memory.md R29, R30, R38). -/

namespace Sys2Proof.Machine

/-- Addresses that reduce to one cell read one byte (R29). -/
theorem memRead_congr (s : State) {a b : Nat} (h : a % memSize = b % memSize) :
    s.memRead a = s.memRead b := congrArg (Memory.read (resetByte s.cfg) s.mem) h

/-- A fetch with PC at the cell of an address reads the byte there and the byte of the next address,
which is the one at 0x000 at the end of memory (R29, R30). -/
theorem fetchWord_setPc_cell (s : State) (a : Nat) :
    (s.setPc (BitVec.ofNat 16 (a % memSize))).fetchWord = s.memRead a ++ s.memRead (a + 1) := by
  have hpc : (BitVec.ofNat 16 (a % memSize)).toNat = a % memSize := by
    rw [BitVec.toNat_ofNat]
    simp only [memSize]
    omega
  have hhi : s.memRead (a % memSize) = s.memRead a := memRead_congr s (Nat.mod_mod ..)
  have hlo : s.memRead (a % memSize + 1) = s.memRead (a + 1) := memRead_congr s (Nat.mod_add_mod ..)
  simp only [State.fetchWord, bigEndian, setPc_pc, setPc_memRead, hpc, hhi, hlo]

@[simp] theorem advanceIndex_memRead (s : State) (n a : Nat) :
    (s.advanceIndex n).memRead a = s.memRead a := by
  obtain ⟨w, h⟩ := advanceIndex_frame s n
  rw [h, setI_memRead]

/-- FX55 leaves `V[k]` at `I + k` for every k up to X (R77). -/
theorem stm_memRead (s : State) {x k : Reg} (hk : k ≤ x) :
    ((s.spill (x.val + 1)).advanceIndex (x.val + 1)).memRead (s.ea k.val) = s.readV k := by
  rw [advanceIndex_memRead, spill_memRead s (Nat.lt_succ_of_le hk) x.isLt, loopReg_of_val]

end Sys2Proof.Machine
end

section
/-! Settled obligations of 20_memory.md. -/

namespace Sys2Proof.Machine

/-- Settles O23: the fetch reads `I + k` and `I + k + 1`, where the store has left `V[k]` and `V[k+1]`. -/
theorem storedBytesAreFetchedBigEndian : Obligations.StoredBytesAreFetchedBigEndian := by
  intro s x k j hj hjx
  have hkj : k ≤ j := Fin.le_def.2 (by omega)
  have hnext : s.ea k.val + 1 = s.ea j.val := by rw [hj]; rfl
  have hexec : exec (.stm x) s = .next ((s.spill (x.val + 1)).advanceIndex (x.val + 1)) := rfl
  refine ⟨_, hexec, exec_keeps hexec, (fetchWord_setPc_cell _ (s.ea k.val)).trans ?_⟩
  rw [hnext, stm_memRead s (hkj.trans hjx), stm_memRead s hjx]

end Sys2Proof.Machine
end

section
/-! The fields of a word build it again, and an encoded instruction is decoded (30_encoding.md R39 to
R44). -/

namespace Sys2Proof

/-! ### A word is what its fields build -/

section
variable {op : Word}

theorem field_opc_lt (op : Word) : field op 15 12 < 16 := Nat.mod_lt _ (by decide)

theorem field_n_lt (op : Word) : field op 3 0 < 16 := Nat.mod_lt _ (by decide)

theorem fieldX_val (op : Word) : (fieldX op).val = field op 11 8 :=
  Nat.mod_eq_of_lt (Nat.mod_lt _ (by decide))

theorem fieldY_val (op : Word) : (fieldY op).val = field op 7 4 :=
  Nat.mod_eq_of_lt (Nat.mod_lt _ (by decide))

theorem nibble_fieldN_toNat (op : Word) : (nibble (fieldN op)).toNat = field op 3 0 :=
  Nat.mod_eq_of_lt (field_n_lt op)

theorem fieldNN_toNat (op : Word) : (fieldNN op).toNat = field op 7 0 :=
  Nat.mod_eq_of_lt (Nat.mod_lt _ (by decide))

theorem fieldNNN_toNat (op : Word) : (fieldNNN op).toNat = field op 11 0 :=
  Nat.mod_eq_of_lt (Nat.mod_lt _ (by decide))

/-- A word of format `XNN` is rebuilt from its opcode, X and its low byte (R40, R41). -/
theorem encXNN_fields {opc : BitVec 4} {nn : Byte} (hopc : field op 15 12 = opc.toNat)
    (hnn : field op 7 0 = nn.toNat) : encXNN opc (fieldX op) nn = op := by
  refine BitVec.eq_of_toNat_eq ?_
  rw [toNat_encXNN, fieldX_val, ← hopc, ← hnn]
  simp only [field, Nat.reducePow, Nat.reduceAdd, Nat.reduceSub]
  omega

/-- A word of format `XY` or `XYN` is rebuilt from its opcode, X, Y and its low digit (R40, R41). -/
theorem encXYN_fields {opc n : BitVec 4} (hopc : field op 15 12 = opc.toNat)
    (hn : field op 3 0 = n.toNat) : encXYN opc (fieldX op) (fieldY op) n = op := by
  refine BitVec.eq_of_toNat_eq ?_
  rw [toNat_encXYN, fieldX_val, fieldY_val, ← hopc, ← hn]
  simp only [field, Nat.reducePow, Nat.reduceAdd, Nat.reduceSub]
  omega

/-- A word of format `NNN` is rebuilt from its opcode and NNN (R40, R41). -/
theorem encNNN_fields {opc : BitVec 4} (hopc : field op 15 12 = opc.toNat) :
    encNNN opc (fieldNNN op) = op := by
  refine BitVec.eq_of_toNat_eq ?_
  rw [toNat_encNNN, fieldNNN_toNat, ← hopc]
  simp only [field, Nat.reducePow, Nat.reduceAdd, Nat.reduceSub]
  omega

theorem toNat_encode_scd (n : Fin 16) : (encode (.scd n)).toNat = 0xC0 + n.val := by
  revert n; decide

/-- The words of 00CN are those with 00C above the low digit (R43, table A). -/
theorem encode_scd_fieldN (h : field op 15 4 = 0x00C) : encode (.scd (fieldN op)) = op := by
  refine BitVec.eq_of_toNat_eq ?_
  have hn : (fieldN op).val = field op 3 0 := nibble_fieldN_toNat op
  rw [toNat_encode_scd, hn]
  simp only [field, Nat.reducePow, Nat.reduceAdd, Nat.reduceSub] at h ⊢
  omega

/-- A word is its two bytes, the high byte first (R30). -/
theorem bigEndian_bytes (op : Word) :
    bigEndian (BitVec.ofNat 8 (field op 15 8)) (BitVec.ofNat 8 (field op 7 0)) = op := by
  refine BitVec.eq_of_toNat_eq ?_
  rw [bigEndian, BitVec.toNat_append, ← Nat.shiftLeft_add_eq_or_of_lt (BitVec.isLt _), Nat.shiftLeft_eq]
  simp only [BitVec.toNat_ofNat, field, Nat.reducePow, Nat.reduceAdd, Nat.reduceSub]
  omega

/-- The byte decoder reads one word and leaves the rest (R39, R40). -/
theorem decode_wordBytes (v : Variant) (op : Word) (rest : List Byte) :
    decode v (wordBytes op ++ rest) = (decodeWord v op).map fun i => (i, rest) := by
  simp only [wordBytes, List.cons_append, List.nil_append, decode, bigEndian_bytes]

end

/-! ### From the instruction to the word -/

/-- A well-formed instruction is what its variant decodes from its word: the family RoundTrip, over all
instructions. -/
theorem decodeWord_encode {v : Variant} {i : Instr} (h : i.wf v = true) :
    decodeWord v (encode i) = .ok i := by
  cases i with
  | cls => exact Laws.RoundTrip.cls v h
  | ret => exact Laws.RoundTrip.ret v h
  | scd n => exact Laws.RoundTrip.scd n v h
  | scr => exact Laws.RoundTrip.scr v h
  | scl => exact Laws.RoundTrip.scl v h
  | exit => exact Laws.RoundTrip.exit v h
  | low => exact Laws.RoundTrip.low v h
  | high => exact Laws.RoundTrip.high v h
  | jp nnn => exact Laws.RoundTrip.jp nnn v h
  | call nnn => exact Laws.RoundTrip.call nnn v h
  | seImm x nn => exact Laws.RoundTrip.seImm x nn v h
  | sneImm x nn => exact Laws.RoundTrip.sneImm x nn v h
  | seReg x y => exact Laws.RoundTrip.seReg x y v h
  | ldImm x nn => exact Laws.RoundTrip.ldImm x nn v h
  | addImm x nn => exact Laws.RoundTrip.addImm x nn v h
  | ldReg x y => exact Laws.RoundTrip.ldReg x y v h
  | orReg x y => exact Laws.RoundTrip.orReg x y v h
  | andReg x y => exact Laws.RoundTrip.andReg x y v h
  | xorReg x y => exact Laws.RoundTrip.xorReg x y v h
  | addReg x y => exact Laws.RoundTrip.addReg x y v h
  | sub x y => exact Laws.RoundTrip.sub x y v h
  | shr x y => exact Laws.RoundTrip.shr x y v h
  | subn x y => exact Laws.RoundTrip.subn x y v h
  | shl x y => exact Laws.RoundTrip.shl x y v h
  | sneReg x y => exact Laws.RoundTrip.sneReg x y v h
  | ldIdx nnn => exact Laws.RoundTrip.ldIdx nnn v h
  | jpo nnn => exact Laws.RoundTrip.jpo nnn v h
  | rnd x nn => exact Laws.RoundTrip.rnd x nn v h
  | drw x y n => exact Laws.RoundTrip.drw x y n v h
  | drw16 x y => exact Laws.RoundTrip.drw16 x y v h
  | skp x => exact Laws.RoundTrip.skp x v h
  | sknp x => exact Laws.RoundTrip.sknp x v h
  | getdt x => exact Laws.RoundTrip.getdt x v h
  | wkey x => exact Laws.RoundTrip.wkey x v h
  | setdt x => exact Laws.RoundTrip.setdt x v h
  | setst x => exact Laws.RoundTrip.setst x v h
  | addIdx x => exact Laws.RoundTrip.addIdx x v h
  | font x => exact Laws.RoundTrip.font x v h
  | fonthi x => exact Laws.RoundTrip.fonthi x v h
  | bcd x => exact Laws.RoundTrip.bcd x v h
  | stm x => exact Laws.RoundTrip.stm x v h
  | ldm x => exact Laws.RoundTrip.ldm x v h
  | stf x => exact Laws.RoundTrip.stf x v h
  | ldf x => exact Laws.RoundTrip.ldf x v h

end Sys2Proof
end

section
/-! What the decoder reads: in each table, the instruction read is well formed and its word is the word
read (30_encoding.md R41 to R46). -/

namespace Sys2Proof

section
variable {v : Variant} {op : Word} {i j : Instr}

theorem onlyInExt_ok (h : onlyInExt v j = .ok i) : v.isExt = true ∧ j = i := by
  unfold onlyInExt at h
  split at h
  next hv => exact ⟨hv, Except.ok.inj h⟩
  next => cases h

theorem onlyLowX_ok {x : Reg} (h : onlyLowX v x j = .ok i) :
    v.isExt = true ∧ x.val ≤ 7 ∧ j = i := by
  unfold onlyLowX at h
  split at h
  next hv =>
    split at h
    next hx => exact ⟨hv, hx, Except.ok.inj h⟩
    next => cases h
  next => cases h

/-- A form that only EXT has: it is well formed wherever it is read (R44). -/
theorem word_of_onlyInExt (h : onlyInExt v j = .ok i) (hw : j.wf v = v.isExt) (he : encode j = op) :
    encode i = op ∧ i.wf v = true := by
  obtain ⟨hv, rfl⟩ := onlyInExt_ok h
  exact ⟨he, hw.trans hv⟩

/-- FX75 and FX85: they are read in EXT with X at most 7, where they are well formed (R44). -/
theorem word_of_onlyLowX {x : Reg} (h : onlyLowX v x j = .ok i)
    (hw : j.wf v = (v.isExt && decide (x.val ≤ 7))) (he : encode j = op) :
    encode i = op ∧ i.wf v = true := by
  obtain ⟨hv, hx, rfl⟩ := onlyLowX_ok h
  exact ⟨he, by rw [hw, hv, decide_eq_true hx]; rfl⟩

/-- Table A. -/
theorem word_of_decodeSys (h : decodeSys v op = .ok i) : encode i = op ∧ i.wf v = true := by
  unfold decodeSys at h
  split_ifs at h with hcls hret hscd hscr hscl hexit hlow hhigh
  · cases h; exact ⟨hcls.symm, rfl⟩
  · cases h; exact ⟨hret.symm, rfl⟩
  · exact word_of_onlyInExt h rfl (encode_scd_fieldN hscd)
  · exact word_of_onlyInExt h rfl hscr.symm
  · exact word_of_onlyInExt h rfl hscl.symm
  · exact word_of_onlyInExt h rfl hexit.symm
  · exact word_of_onlyInExt h rfl hlow.symm
  · exact word_of_onlyInExt h rfl hhigh.symm

/-- Table B: the opcode, X, Y and the low digit make up the word. -/
theorem word_of_decodeAlu (hopc : field op 15 12 = 0x8) (h : decodeAlu op = .ok i) :
    encode i = op ∧ i.wf v = true := by
  unfold decodeAlu at h
  split at h <;> cases h <;> exact ⟨encXYN_fields hopc ‹_›, rfl⟩

/-- Table C: the opcode, X and the low byte make up the word. -/
theorem word_of_decodeKey (hopc : field op 15 12 = 0xE) (h : decodeKey op = .ok i) :
    encode i = op ∧ i.wf v = true := by
  unfold decodeKey at h
  split at h <;> cases h <;> exact ⟨encXNN_fields hopc ‹_›, rfl⟩

/-- Table D: the opcode, X and the low byte make up the word. -/
theorem word_of_decodeMisc (hopc : field op 15 12 = 0xF) (h : decodeMisc v op = .ok i) :
    encode i = op ∧ i.wf v = true := by
  unfold decodeMisc at h
  split at h
  -- FX30, then FX75 and FX85
  case h_7 hnn => exact word_of_onlyInExt h rfl (encXNN_fields hopc hnn)
  case h_11 hnn | h_12 hnn => exact word_of_onlyLowX h rfl (encXNN_fields hopc hnn)
  all_goals cases h <;> exact ⟨encXNN_fields hopc ‹_›, rfl⟩

/-- The draw row: N = 0 is DXY0 in EXT and DXYN in BASE (R44). -/
theorem word_of_decodeDraw (hopc : field op 15 12 = 0xD) :
    encode (decodeDraw v op) = op ∧ (decodeDraw v op).wf v = true := by
  unfold decodeDraw
  split
  next hn =>
    rw [Bool.and_eq_true, decide_eq_true_eq] at hn
    obtain ⟨hv, hn⟩ := hn
    have hlow : field op 3 0 = (0x0#4).toNat := by rw [← nibble_fieldN_toNat, hn]; rfl
    exact ⟨encXYN_fields hopc hlow, hv⟩
  next hn =>
    exact ⟨encXYN_fields hopc (nibble_fieldN_toNat op).symm,
      congrArg not (Bool.eq_false_of_not_eq_true hn)⟩

/-- Whatever the decoder reads is well formed and has the word read (R42). -/
theorem word_of_decodeWord (h : decodeWord v op = .ok i) : encode i = op ∧ i.wf v = true := by
  unfold decodeWord at h
  split at h
  case h_1 => exact word_of_decodeSys h
  -- 1NNN, 2NNN, ANNN, BNNN
  case h_2 hopc | h_3 hopc | h_11 hopc | h_12 hopc => cases h; exact ⟨encNNN_fields hopc, rfl⟩
  -- 3XNN, 4XNN, 6XNN, 7XNN, CXNN
  case h_4 hopc | h_5 hopc | h_7 hopc | h_8 hopc | h_13 hopc =>
    cases h
    exact ⟨encXNN_fields hopc (fieldNN_toNat op).symm, rfl⟩
  -- 5XY0, 9XY0
  case h_6 hopc | h_10 hopc =>
    split at h
    next hn => cases h; exact ⟨encXYN_fields hopc hn, rfl⟩
    next => cases h
  case h_9 hopc => exact word_of_decodeAlu hopc h
  case h_14 hopc => cases h; exact word_of_decodeDraw hopc
  case h_15 hopc => exact word_of_decodeKey hopc h
  case h_16 =>
    have hlt := field_opc_lt op
    have hopc : field op 15 12 = 0xF := by grind
    exact word_of_decodeMisc hopc h

end

end Sys2Proof
end

section
/-! What each table of the decoder refuses (30_encoding.md R45). -/

namespace Sys2Proof

section
variable {v : Variant} {op : Word} {i : Instr}

/-- A form that only EXT has is refused in BASE (R45 (g)). -/
@[simp] theorem onlyInExt_error : (∃ e, onlyInExt v i = .error e) ↔ v ≠ .ext := by
  cases v <;> simp [onlyInExt, Variant.isExt]

/-- FX75 and FX85 are refused in BASE, and in EXT with X above 7 (R45 (f), (g)). -/
@[simp] theorem onlyLowX_error {x : Reg} :
    (∃ e, onlyLowX v x i = .error e) ↔ v ≠ .ext ∨ v = .ext ∧ 8 ≤ x.val := by
  cases v with
  | base => simp [onlyLowX, Variant.isExt]
  | ext =>
    have h8 : 8 ≤ x.val ↔ ¬ x.val ≤ 7 := by omega
    by_cases hx : x.val ≤ 7
    · simp [onlyLowX, Variant.isExt, h8, hx]
    · simp [onlyLowX, Variant.isExt, h8, hx]

/-- The words 00CN, as a range. -/
theorem scd_range (op : Word) : 0x00C0 ≤ op.toNat ∧ op.toNat ≤ 0x00CF ↔ field op 15 4 = 0x00C := by
  have := op.isLt
  simp only [field, Nat.reducePow, Nat.reduceAdd, Nat.reduceSub]
  omega

/-- The words 00FB to 00FF, one by one. -/
theorem display_range (op : Word) : 0x00FB ≤ op.toNat ∧ op.toNat ≤ 0x00FF ↔
    op = 0x00FB#16 ∨ op = 0x00FC#16 ∨ op = 0x00FD#16 ∨ op = 0x00FE#16 ∨ op = 0x00FF#16 := by
  bv_omega

/-- Table A (R45 (a), with the extended-only words of (g)). -/
theorem decodeSys_error : (∃ e, decodeSys v op = .error e) ↔
    op ≠ 0x00E0#16 ∧ op ≠ 0x00EE#16 ∧
      ¬ (v = .ext ∧ (0x00C0 ≤ op.toNat ∧ op.toNat ≤ 0x00CF ∨
        0x00FB ≤ op.toNat ∧ op.toNat ≤ 0x00FF)) := by
  rw [scd_range, display_range]
  unfold decodeSys
  split_ifs <;> simp [*]

/-- Table B (R45 (c)). -/
theorem decodeAlu_error :
    (∃ e, decodeAlu op = .error e) ↔ field op 3 0 ∈ [8, 9, 0xA, 0xB, 0xC, 0xD, 0xF] := by
  have hlt := field_n_lt op
  unfold decodeAlu
  split
  case h_10 =>
    have hmem : field op 3 0 ∈ [8, 9, 0xA, 0xB, 0xC, 0xD, 0xF] := by
      simp only [List.mem_cons, List.not_mem_nil]
      grind
    simp [hmem]
  all_goals simp [*]

/-- Table C (R45 (d)). -/
theorem decodeKey_error :
    (∃ e, decodeKey op = .error e) ↔ field op 7 0 ≠ 0x9E ∧ field op 7 0 ≠ 0xA1 := by
  unfold decodeKey
  split
  case h_3 => simp_all
  all_goals simp [*]

/-- Table D (R45 (e), (f) and the extended-only words of (g)). -/
theorem decodeMisc_error : (∃ e, decodeMisc v op = .error e) ↔
    field op 7 0 ∉ [0x07, 0x0A, 0x15, 0x18, 0x1E, 0x29, 0x33, 0x55, 0x65] ∧
        ¬ (v = .ext ∧ field op 7 0 ∈ [0x30, 0x75, 0x85]) ∨
    v = .ext ∧ field op 7 0 ∈ [0x75, 0x85] ∧ 8 ≤ field op 11 8 := by
  rw [← fieldX_val]
  unfold decodeMisc
  split
  case h_13 => simp_all
  all_goals simp [*]

end

end Sys2Proof
end

section
/-! The extended-only forms in BASE (30_encoding.md R44, R45 (g)), and a step that decodes (R39). -/

namespace Sys2Proof.Machine

/-! ### Extended-only forms in BASE -/

/-- BASE refuses the word of an extended-only form; that of DXY0 is DXYN with N = 0 there (R44). -/
theorem decodeWord_base_of_extOnly {i : Instr} (hw : i.wf .base = false)
    (hi : ∀ x y, i ≠ .drw16 x y) : decodeWord .base (encode i) = .error .extOnly := by
  cases i with
  | scd n => revert n; decide
  | scr | scl | exit | low | high => rfl
  | fonthi x => simp [encode, decodeWord, decodeMisc, onlyInExt, Variant.isExt]
  | stf x | ldf x => simp [encode, decodeWord, decodeMisc, onlyLowX, Variant.isExt]
  | drw16 x y => exact absurd rfl (hi x y)
  | _ => cases hw

/-- In BASE the forms FX75 and FX85 raise the decode error for every X (R79, R80). -/
theorem ifLowX_base {s u : State} {i : Instr} {x : Reg} (h : s.cfg.extOps = false) :
    (if x.val ≤ 7 then s.ifExt i u else .next (s.raiseDecodeError (encode i))) =
      .next (s.raiseDecodeError (encode i)) := by
  rw [ifExt_base h, ite_self]

/-- In BASE an extended-only form raises the decode error on its own word (log 14). -/
theorem exec_base_of_extOnly {i : Instr} {s : State} (hb : s.cfg.extOps = false)
    (hw : i.wf .base = false) (hi : ∀ x y, i ≠ .drw16 x y) :
    exec i s = .next (s.raiseDecodeError (encode i)) := by
  cases i with
  | scd | scr | scl | exit | low | high | fonthi => exact ifExt_base hb _ _
  | stf | ldf => exact ifLowX_base hb
  | drw16 x y => exact absurd rfl (hi x y)
  | _ => cases hw

/-- The decode error records PC as it stands and changes RUN alone (R109). -/
theorem raisesDecodeError_of_exec {i : Instr} {s : State} {op : Word}
    (h : exec i s = .next (s.raiseDecodeError op)) : RaisesDecodeError i s op :=
  ⟨_, h, keeps_raiseDecodeError s op, rfl⟩

/-! ### A step that decodes -/

theorem coreStep_of_decode {s : State} {i : Instr} (hw : s.wait = .none)
    (hd : decodeWord s.cfg.variant s.fetchWord = .ok i) : coreStep s = exec i s.advancePc := by
  simp only [coreStep, hw, hd]

/-- A running machine that does not stop at its boundary takes the spec's Step() (R119, R121). -/
theorem step_of_goes_on {s : State} (hr : s.run = .running) (hgo : s.stopsNow = false) :
    step s = onNext State.finishStep (coreStep s.enterStep) := by
  simp only [step, hr, hgo, Bool.false_eq_true, if_false]

end Sys2Proof.Machine
end

section
/-! Settled obligations of 30_encoding.md. -/

namespace Sys2Proof.Machine

/-- Settles O2: the byte decoder reads the word again from its two bytes, and the word decodes to its
instruction. -/
theorem decodeOfEncodeIsTheInstruction : Obligations.DecodeOfEncodeIsTheInstruction := by
  intro v i rest h
  rw [decode_wordBytes, decodeWord_encode h]
  rfl

/-- Settles O3: row by row of the opcode map, the selectors and the operand fields build the word read. -/
theorem encodeOfDecodeIsTheWord : Obligations.EncodeOfDecodeIsTheWord :=
  fun _ _ _ => word_of_decodeWord

/-- Settles O4: the first digit selects a row of the opcode map, and each row refuses the words of its own
classes alone. -/
theorem illegalWordsAreExactlyTheListed : Obligations.IllegalWordsAreExactlyTheListed := by
  intro v op
  unfold decodeWord
  split
  case h_1 hopc =>
    rw [decodeSys_error]
    simp [hopc]
  -- 5XY0 and 9XY0: any other low digit is refused.
  case h_6 hopc | h_10 hopc =>
    by_cases hn : field op 3 0 = 0
    · simp [hopc, hn]
    · simp [hopc, hn]
  case h_9 hopc =>
    rw [decodeAlu_error]
    simp [hopc]
  case h_15 hopc =>
    rw [decodeKey_error]
    simp [hopc]
  case h_16 =>
    have hlt := field_opc_lt op
    have hopc : field op 15 12 = 0xF := by grind
    rw [decodeMisc_error]
    simp [hopc]
  -- The other rows have operands in every digit and refuse no word.
  all_goals simp [*]

/-- Settles O20: of the ill-formed terms only DXY0 has a word that BASE decodes, and the others raise the
decode error on theirs. -/
theorem extendedOnlyFormsHaltInBase : Obligations.ExtendedOnlyFormsHaltInBase := by
  intro i s hv hw hi
  exact ⟨decodeWord_base_of_extOnly hw hi,
    raisesDecodeError_of_exec (exec_base_of_extOnly (extOps_of_base hv) hw hi)⟩

/-- Settles O1: twelve closed words, each evaluated by the decoder. -/
theorem sampleWordsDecode : Obligations.SampleWordsDecode := by
  unfold Obligations.SampleWordsDecode
  decide

/-- Settles O5: the entry of a step keeps PC, the key wait, the configuration and the word fetched, so the
spec's Step() decodes the word at PC. -/
theorem stepRunsTheDecodedInstruction : Obligations.StepRunsTheDecodedInstruction := by
  intro s i hr hw hgo hd
  have hfetch : decodeWord s.enterStep.cfg.variant s.enterStep.fetchWord = .ok i := by
    rw [enterStep_cfg, enterStep_fetchWord]
    exact hd
  have hcore : coreStep s.enterStep = exec i s.enterStep.advancePc :=
    coreStep_of_decode (by rw [enterStep_wait, hw]) hfetch
  rw [step_of_goes_on hr hgo, hcore, State.advancePc, enterStep_pc]

end Sys2Proof.Machine
end

section
/-! The control-transfer instructions (40_flow.md R49 to R58): the targets of a jump, the skip, the return,
and the halt. -/

namespace Sys2Proof.Machine

section
variable {i : Instr} {s t : State} {post : State → Prop}

/-- An instruction that answers a next state runs within its row of `mayChange`. -/
theorem runs_of_exec (h : exec i s = .next t) (hp : post t) : Runs i s (mayChange i) post :=
  ⟨t, h, exec_keeps h, hp⟩

/-! ### Targets of a jump -/

@[simp] theorem zextAddr_toNat (nnn : BitVec 12) : (zextAddr nnn).toNat = nnn.toNat :=
  BitVec.toNat_setWidth_of_le (by decide)

@[simp] theorem zextByte_toNat (b : Byte) : (zextByte b).toNat = b.toNat :=
  BitVec.toNat_setWidth_of_le (by decide)

/-- An address plus a byte stays below 65536, so the sum of BNNN never wraps (R57). -/
theorem zextAddr_add_zextByte_toNat (nnn : BitVec 12) (b : Byte) :
    (zextAddr nnn + zextByte b).toNat = nnn.toNat + b.toNat := by
  have hn := nnn.isLt
  have hb := b.isLt
  rw [BitVec.toNat_add, zextAddr_toNat, zextByte_toNat]
  omega

/-- The legacy machine is BASE with IS_OLDER (00_scope.md R6). -/
theorem legacy_iff {c : Config} : c.legacy = true ↔ c.variant = .base ∧ c.isOlder = true := by
  rcases variant_cases c with hv | hv
  · simp [Config.legacy, hv, Variant.isExt]
  · simp [Config.legacy, hv, Variant.isExt]

theorem topDigit_of_val {nnn : BitVec 12} {x : Reg} (h : x.val = nnn.toNat / 256) :
    topDigit nnn = x := by
  rw [topDigit, ← h, Fin.ofNat_val_eq_self]

/-- The register BNNN adds: V0 in the legacy machine, else that of the top digit (R57). -/
theorem jumpOffset_eq {nnn : BitVec 12} {x : Reg} (h : x.val = nnn.toNat / 256) :
    s.jumpOffset nnn =
      if s.cfg.variant = .base ∧ s.cfg.isOlder = true then s.readV 0 else s.readV x := by
  simp only [State.jumpOffset, Config.qJumpV0, legacy_iff, topDigit_of_val h]

/-! ### Skips -/

/-- A skip adds a further 2 modulo 65536 exactly when its condition holds (R49). -/
theorem skipIf_pc_toNat (s : State) (p : Prop) [Decidable p] :
    (s.skipIf (decide p)).pc.toNat = if p then (s.pc.toNat + 2) % 65536 else s.pc.toNat := by
  rw [skipIf_pc]
  by_cases hp : p
  · simp [hp, BitVec.toNat_add]
  · simp [hp]

theorem runs_skipIf {p : Prop} [Decidable p] (h : exec i s = .next (s.skipIf (decide p))) :
    Runs i s [.pc] fun t => t.pc.toNat = if p then (s.pc.toNat + 2) % 65536 else s.pc.toNat :=
  ⟨_, h, keeps_skipIf s _, skipIf_pc_toNat s p⟩

/-- The skips that test for inequality skip when the equality fails (R54, R56). -/
theorem runs_skipIf_not {p : Prop} [Decidable p] (h : exec i s = .next (s.skipIf (decide ¬p))) :
    Runs i s [.pc] fun t => t.pc.toNat = if p then s.pc.toNat else (s.pc.toNat + 2) % 65536 := by
  simpa only [ite_not] using runs_skipIf h

/-- The words 5XYn and 9XYn with n not 0 are refused (R45 (b)). -/
theorem decodeWord_skip_lowNibble (v : Variant) (x y : Reg) {n : BitVec 4} (hn : n ≠ 0) :
    decodeWord v (encXYN 0x5#4 x y n) = .error .lowNibble5 ∧
      decodeWord v (encXYN 0x9#4 x y n) = .error .lowNibble9 := by
  have hlow : n.toNat ≠ 0 := fun h => hn (BitVec.eq_of_toNat_eq h)
  exact ⟨by simp [decodeWord, hlow], by simp [decodeWord, hlow]⟩

/-! ### Call, return and exit -/

/-- RET on a stack that is not empty pops the last pushed value into PC (R50). -/
theorem runs_ret {l : List Word} {w : Word} (h : s.stk = l ++ [w])
    (hp : post ((s.setStk l).setPc w)) : Runs .ret s [.pc, .stk] post := by
  have hexec : exec .ret s = .next ((s.setStk l).setPc w) := by simp [exec, execRet, h]
  exact ⟨_, hexec, ((keeps_setStk s l).append (keeps_setPc _ w)).mono (by decide), hp⟩

/-- RET on an empty stack halts (R50, R110). -/
theorem exec_ret_of_empty (h : s.stk = []) : exec .ret s = .next s.raiseStackUnderflow := by
  simp [exec, execRet, h]

theorem exec_exit_of_ext (h : s.cfg.variant = .ext) : exec .exit s = .next s.haltExit :=
  ifExt_ext (extOps_of_ext h) .exit s.haltExit

/-- A halted machine takes no step (30_encoding.md R39, 60_exceptions.md R108). -/
theorem step_of_halted {c : HaltCause} {op pc : Word} (h : s.run = .halted c op pc) :
    step s = .fault (.halted c op pc) := by
  simp only [step, h]

end

end Sys2Proof.Machine
end

section
/-! Settled obligations of 40_flow.md. -/

namespace Sys2Proof.Machine

/-- Settles O28: CALL leaves the stack with PC pushed on it, and RET pops exactly that value. -/
theorem returnUndoesCall : Obligations.ReturnUndoesCall :=
  fun _ _ _ => ⟨_, rfl, fun hstk => runs_ret hstk ⟨rfl, rfl⟩⟩

/-- Settles O31: the sum of a 12-bit address and a byte does not wrap, and the byte is that of the register
the legacy switch selects. -/
theorem jumpWithOffset : Obligations.JumpWithOffset := by
  intro nnn x s hx
  refine ⟨fun _ => decodeWord_encode (i := .jpo nnn) rfl, runs_of_exec rfl ?_⟩
  rw [setPc_pc, zextAddr_add_zextByte_toNat, jumpOffset_eq hx]

/-- Settles O24: JP writes the zero-extended address to PC. -/
theorem jumpSetsThePc : Obligations.JumpSetsThePc :=
  fun nnn _ => ⟨fun _ => decodeWord_encode (i := .jp nnn) rfl, runs_of_exec rfl (zextAddr_toNat nnn)⟩

/-- Settles O25: CALL appends PC to the stack and writes the zero-extended address to PC. -/
theorem callPushesThePc : Obligations.CallPushesThePc :=
  fun nnn _ => ⟨fun _ => decodeWord_encode (i := .call nnn) rfl,
    runs_of_exec rfl ⟨rfl, zextAddr_toNat nnn⟩⟩

/-- Settles O26: RET on the stack `l ++ [w]` leaves `l` and jumps to `w`. -/
theorem returnPopsTheStack : Obligations.ReturnPopsTheStack :=
  ⟨fun _ => decodeWord_encode (i := .ret) rfl, fun _ _ _ hstk => runs_ret hstk ⟨rfl, rfl⟩⟩

/-- Settles O27: RET finds nothing to pop, and the halt writes RUN alone. -/
theorem returnOnEmptyStackHalts : Obligations.ReturnOnEmptyStackHalts :=
  fun s hstk => ⟨_, exec_ret_of_empty hstk, keeps_setRun s _, rfl⟩

/-- Settles O29: both are skips on the equality of V[X] and NN, SNE on its negation. -/
theorem immediateSkips : Obligations.ImmediateSkips :=
  fun x nn _ =>
    ⟨fun _ => ⟨decodeWord_encode (i := .seImm x nn) rfl, decodeWord_encode (i := .sneImm x nn) rfl⟩,
      runs_skipIf rfl, runs_skipIf_not rfl⟩

/-- Settles O30: both are skips on the equality of V[X] and V[Y], SNE on its negation; the decoder tests the
low digit before it answers either. -/
theorem registerSkips : Obligations.RegisterSkips :=
  fun x y _ =>
    ⟨fun _ => ⟨decodeWord_encode (i := .seReg x y) rfl, decodeWord_encode (i := .sneReg x y) rfl⟩,
      fun v _ hn => decodeWord_skip_lowNibble v x y hn, runs_skipIf rfl, runs_skipIf_not rfl⟩

/-- Settles O32: in EXT the halt writes RUN alone, and a machine so halted faults; in BASE the form is one
of the extended-only ones. -/
theorem exitEndsTheRun : Obligations.ExitEndsTheRun := by
  refine ⟨decodeWord_encode (i := .exit) rfl, decodeWord_base_of_extOnly (i := .exit) rfl nofun,
    fun s => ⟨fun hext => ?_, fun hbase => ?_⟩⟩
  · exact ⟨_, exec_exit_of_ext hext, keeps_setRun s _, rfl, step_of_halted rfl⟩
  · exact raisesDecodeError_of_exec (exec_base_of_extOnly (extOps_of_base hbase) rfl nofun)

end Sys2Proof.Machine
end

section
/-! The register and arithmetic instructions (41_alu.md R59 to R71): what a register write, a logical result
and a flag-writing result leave in the registers, and the arithmetic of the results and the flags. -/

namespace Sys2Proof.Machine

section
variable {i : Instr} {s : State} {x : Reg}

/-! ### Register writes -/

theorem keepsRegs_writeV (s : State) (x : Reg) (b : Byte) : KeepsRegsBut [x] s (s.writeV x b) := by
  intro r hr
  rw [readV_writeV, if_neg (List.ne_of_not_mem_cons hr)]

theorem runs_writeV {b : Byte} (h : exec i s = .next (s.writeV x b)) :
    Runs i s [.v] fun t => t.readV x = b ∧ KeepsRegsBut [x] s t :=
  ⟨_, h, keeps_writeV s x b, readV_writeV_self s x b, keepsRegs_writeV s x b⟩

/-! ### Logical results -/

/-- The quirk that zeroes VF after a logical instruction is on in BASE and off in EXT, whatever
IS_OLDER is (00_scope.md R6, decision D1). -/
theorem qLogicVf0_iff {c : Config} : c.qLogicVf0 = true ↔ c.variant = .base := by
  rcases variant_cases c with hv | hv
  · simp [Config.qLogicVf0, hv, Variant.isExt]
  · simp [Config.qLogicVf0, hv, Variant.isExt]

theorem logicResult_of_exec {r : Byte} (h : exec i s = .next (s.writeLogic x r)) :
    LogicResult i x r s := by
  refine ⟨_, h, keeps_writeLogic s x r, fun y hy => ?_, fun hx => ?_, ?_⟩
  · obtain ⟨hyx, hyf⟩ : y ≠ x ∧ y ≠ 15 := by simpa using hy
    simp [readV_writeLogic, vf, hyx, hyf]
  · simp [readV_writeLogic, vf, hx]
  · simp only [readV_writeLogic, qLogicVf0_iff, vf, and_true, eq_comm (a := x)]

/-! ### Flag-writing results -/

/-- A flag-writing instruction has the result and the flag of its rule once the byte it writes has the
rule's value and its flag bit stands for the rule's condition (R59 (b)). -/
theorem flagResult_of_exec {r : Byte} {f : Bool} {n : Nat} {p : Prop}
    (h : exec i s = .next (s.writeResult x r f)) (hr : r.toNat = n) (hf : f = true ↔ p) :
    FlagResult i x n p s := by
  refine ⟨_, h, keeps_writeResult s x r f, fun y hy => ?_, fun hx => ?_, fun hp => ?_, fun hp => ?_⟩
  · obtain ⟨hyx, hyf⟩ : y ≠ x ∧ y ≠ 15 := by simpa using hy
    simp [readV_writeResult, vf, hyx, hyf]
  · simp [readV_writeResult, vf, hx, hr]
  · simp [readV_writeResult, vf, flagByte, hf.2 hp]
  · simp [readV_writeResult, vf, flagByte, mt hf.1 hp]

theorem carryOut_iff {a b : Byte} : carryOut a b = true ↔ 255 < a.toNat + b.toNat :=
  decide_eq_true_iff

theorem noBorrow_iff {a b : Byte} : noBorrow a b = true ↔ b.toNat ≤ a.toNat :=
  decide_eq_true_iff

theorem lowBit_iff {a : Byte} : lowBit a = true ↔ a.toNat % 2 = 1 := by
  rw [lowBit, BitVec.getLsbD, Nat.testBit_zero, decide_eq_true_iff]

/-- Bit 7 is the top bit of a byte. -/
theorem highBit_iff {a : Byte} : highBit a = true ↔ 128 ≤ a.toNat := by
  change a.msb = true ↔ _
  rw [BitVec.msb_eq_decide, decide_eq_true_iff]

/-- The difference modulo 256, read without a negative number (R59). -/
theorem toNat_sub_byte (a b : Byte) : (a - b).toNat = (256 + a.toNat - b.toNat) % 256 := by
  have hb := b.isLt
  rw [BitVec.toNat_sub]
  omega

theorem toNat_shiftLeft_one (a : Byte) : (a <<< 1).toNat = a.toNat * 2 % 256 := by
  rw [BitVec.toNat_shiftLeft, Nat.shiftLeft_eq]

theorem toNat_ushiftRight_one (a : Byte) : (a >>> 1).toNat = a.toNat / 2 := by
  rw [BitVec.toNat_ushiftRight, Nat.shiftRight_eq_div_pow]

/-- The byte a shift reads: V[Y] in the legacy machine, else V[X] (R68, R70). -/
theorem shiftSource_eq (s : State) (x y : Reg) :
    s.shiftSource x y =
      if s.cfg.variant = .base ∧ s.cfg.isOlder = true then s.readV y else s.readV x := by
  simp only [State.shiftSource, Config.qShiftVy, legacy_iff]

end

end Sys2Proof.Machine
end

section
/-! Settled obligations of 41_alu.md. -/

namespace Sys2Proof.Machine

/-- Settles O36: the three write a logical result, which zeroes VF after it exactly in BASE. -/
theorem logicalOperations : Obligations.LogicalOperations :=
  fun x y _ =>
    ⟨fun _ => ⟨decodeWord_encode (i := .orReg x y) rfl, decodeWord_encode (i := .andReg x y) rfl,
        decodeWord_encode (i := .xorReg x y) rfl⟩,
      logicResult_of_exec rfl, logicResult_of_exec rfl, logicResult_of_exec rfl⟩

/-- Settles O39: both write the shifted source and then the bit that leaves it, bit 0 to the right and bit 7
to the left. -/
theorem shiftsTakeTheirBitOut : Obligations.ShiftsTakeTheirBitOut := by
  intro x y s src hsrc
  obtain rfl : src = s.shiftSource x y := hsrc.trans (shiftSource_eq s x y).symm
  refine ⟨fun _ => ⟨decodeWord_encode (i := .shr x y) rfl, decodeWord_encode (i := .shl x y) rfl⟩,
    ?_, ?_⟩
  · exact flagResult_of_exec rfl (toNat_ushiftRight_one _) lowBit_iff
  · exact flagResult_of_exec rfl (toNat_shiftLeft_one _) highBit_iff

/-- Settles O33: LD writes NN to V[X] alone. -/
theorem loadImmediate : Obligations.LoadImmediate :=
  fun x nn _ => ⟨fun _ => decodeWord_encode (i := .ldImm x nn) rfl, runs_writeV rfl⟩

/-- Settles O34: ADD writes V[X] alone, and the sum of bytes is modulo 256. -/
theorem addImmediateWraps : Obligations.AddImmediateWraps := by
  intro x nn s
  refine ⟨fun _ => decodeWord_encode (i := .addImm x nn) rfl,
    runs_of_exec rfl ⟨?_, keepsRegs_writeV s x _⟩⟩
  rw [readV_writeV_self, BitVec.toNat_add]

/-- Settles O35: LD writes the old V[Y] to V[X] alone. -/
theorem copyRegister : Obligations.CopyRegister :=
  fun x y _ => ⟨fun _ => decodeWord_encode (i := .ldReg x y) rfl, runs_writeV rfl⟩

/-- Settles O37: the sum of bytes is modulo 256, and the carry is the sum's passing 255. -/
theorem addSetsTheCarry : Obligations.AddSetsTheCarry :=
  fun x y _ => ⟨fun _ => decodeWord_encode (i := .addReg x y) rfl,
    flagResult_of_exec rfl (BitVec.toNat_add _ _) carryOut_iff⟩

/-- Settles O38: both write a difference modulo 256, and the flag compares the operands in the order in
which they are subtracted. -/
theorem subtractSetsNoBorrow : Obligations.SubtractSetsNoBorrow :=
  fun x y _ =>
    ⟨fun _ => ⟨decodeWord_encode (i := .sub x y) rfl, decodeWord_encode (i := .subn x y) rfl⟩,
      flagResult_of_exec rfl (toNat_sub_byte _ _) noBorrow_iff,
      flagResult_of_exec rfl (toNat_sub_byte _ _) noBorrow_iff⟩

/-- Settles O40: one sample moves the feed on, and the byte it answers, the oldest scripted one where there is
one, is masked and written to V[X]. -/
theorem randomByteIsMasked : Obligations.RandomByteIsMasked := by
  intro x nn s
  refine ⟨fun _ => decodeWord_encode (i := .rnd x nn) rfl, runs_of_exec rfl ⟨?_, ?_, rfl⟩,
    fun b l n => runs_of_exec rfl ⟨?_, rfl⟩⟩
  · exact readV_writeV_self ..
  · exact keepsRegs_writeV s.afterDraw x _
  · exact readV_writeV_self ..

end Sys2Proof.Machine
end

section
/-! The index register, the loads and the stores (42_index_memory.md R72 to R80): the addresses the index
register is given, what a run of stores leaves at cells taken modulo 4096, and the forms that move the RPL
registers. -/

namespace Sys2Proof.Machine

section
variable {s : State} {x : Reg}

/-! ### The index register -/

theorem indexWord_toNat (n : Nat) : (indexWord n).toNat = n % 4096 := by
  simp only [indexWord, BitVec.toNat_ofNat, memSize]
  omega

theorem glyphLo_digitOf_toNat (b : Byte) : (glyphLo (digitOf b)).toNat = 0x50 + 5 * (b.toNat % 16) := by
  simp only [glyphLo, fontLoBase, digitOf_val, BitVec.toNat_ofNat]
  omega

theorem glyphHi_digitOf_toNat (b : Byte) : (glyphHi (digitOf b)).toNat = 0xA0 + 10 * (b.toNat % 16) := by
  simp only [glyphHi, fontHiBase, digitOf_val, BitVec.toNat_ofNat]
  omega

theorem exec_fonthi_of_ext (h : s.cfg.variant = .ext) (x : Reg) :
    exec (.fonthi x) s = .next (s.setI (glyphHi (digitOf (s.readV x)))) :=
  ifExt_ext (extOps_of_ext h) _ _

/-- The index register after FX55 and FX65: past the registers moved in the legacy machine, else as it
was (R77, R78). -/
theorem advanceIndex_i_toNat (s : State) (n : Nat) :
    (s.advanceIndex n).i.toNat =
      if s.cfg.variant = .base ∧ s.cfg.isOlder = true then (s.i.toNat + n) % 4096 else s.i.toNat := by
  simp only [advanceIndex_i, Config.qMemInc, legacy_iff, apply_ite BitVec.toNat, indexWord_toNat,
    State.ea]

@[simp] theorem advanceIndex_readV (s : State) (n : Nat) (r : Reg) :
    (s.advanceIndex n).readV r = s.readV r := by
  obtain ⟨w, h⟩ := advanceIndex_frame s n
  rw [h, setI_readV]

/-! ### The flag of FX1E -/

theorem indexOverflow_iff {i : Word} {b : Byte} :
    indexOverflow i b = true ↔ 0xFFF < i.toNat + b.toNat := decide_eq_true_iff

@[simp] theorem writeIndexFlag_i (s : State) (o : Bool) : (s.writeIndexFlag o).i = s.i := by
  obtain ⟨w, h⟩ := writeIndexFlag_frame s o
  rw [h]

theorem keepsRegs_writeIndexFlag (s : State) (o : Bool) :
    KeepsRegsBut [15] s (s.writeIndexFlag o) := by
  intro r hr
  exact (readV_writeIndexFlag s o r).trans (if_neg (List.ne_of_not_mem_cons hr))

/-! ### Bytes stored at ascending addresses -/

/-- A store of bytes leaves every cell that none of its addresses reduces to (R29). -/
theorem memRead_memWriteAll_outside (s : State) {a b : Nat} {ws : List Byte}
    (h : ∀ k, k < ws.length → b % memSize ≠ (a + k) % memSize) :
    (s.memWriteAll a ws).memRead b = s.memRead b := by
  induction ws generalizing s a with
  | nil => rfl
  | cons w ws ih =>
    have hrest : ∀ k, k < ws.length → b % memSize ≠ (a + 1 + k) % memSize := fun k hk => by
      have := h (k + 1) (Nat.succ_lt_succ hk)
      rwa [Nat.add_assoc, Nat.add_comm 1 k]
    rw [State.memWriteAll, ih (s.memWrite a w) hrest, memRead_memWrite]
    exact if_neg (h 0 (Nat.zero_lt_succ _))

/-- A store of no more bytes than there are cells leaves the k-th byte at the k-th address, past the end
of memory too (R29): no later byte of it reaches that cell. -/
theorem memRead_memWriteAll_cell (s : State) (a : Nat) {ws : List Byte} {k : Nat} {b : Byte}
    (hws : ws.length ≤ memSize) (hk : ws[k]? = some b) :
    (s.memWriteAll a ws).memRead (a + k) = b := by
  induction ws generalizing s a k with
  | nil => cases hk
  | cons w ws ih =>
    rw [List.length_cons] at hws
    cases k with
    | zero =>
      obtain rfl : w = b := Option.some.inj hk
      have hlater : ∀ j, j < ws.length → a % memSize ≠ (a + 1 + j) % memSize := fun j hj => by
        simp only [memSize] at hws ⊢
        omega
      rw [State.memWriteAll, Nat.add_zero a, memRead_memWriteAll_outside _ hlater, memRead_memWrite,
        if_pos rfl]
    | succ k =>
      rw [State.memWriteAll, Nat.add_comm k 1, ← Nat.add_assoc]
      exact ih (s.memWrite a w) (a + 1) (Nat.le_of_succ_le hws) hk

/-- A number below 256 that is stored as a byte is read back as it was. -/
theorem memRead_memWriteAll_toNat (s : State) (a : Nat) {ws : List Byte} {k n : Nat}
    (hws : ws.length ≤ memSize) (hk : ws[k]? = some (BitVec.ofNat 8 n)) (hn : n < 256) :
    ((s.memWriteAll a ws).memRead (a + k)).toNat = n := by
  rw [memRead_memWriteAll_cell s a hws hk, BitVec.toNat_ofNat, Nat.mod_eq_of_lt hn]

/-! ### The register blocks -/

@[simp] theorem spill_cfg (s : State) (n : Nat) : (s.spill n).cfg = s.cfg := by
  obtain ⟨m, h⟩ := spill_frame s n
  rw [h, setMem_cfg]

@[simp] theorem spill_i (s : State) (n : Nat) : (s.spill n).i = s.i := by
  obtain ⟨m, h⟩ := spill_frame s n
  rw [h, setMem_i]

@[simp] theorem fill_cfg (s : State) (n : Nat) : (s.fill n).cfg = s.cfg := by
  obtain ⟨w, h⟩ := fill_frame s n
  rw [h]

@[simp] theorem fill_i (s : State) (n : Nat) : (s.fill n).i = s.i := by
  obtain ⟨w, h⟩ := fill_frame s n
  rw [h]

theorem keepsBytes_stm (s : State) (x : Reg) :
    KeepsBytesBut ((List.range (x.val + 1)).map s.ea) s
      ((s.spill (x.val + 1)).advanceIndex (x.val + 1)) := by
  intro a ha
  rw [advanceIndex_memRead]
  exact spill_memRead_outside s fun k hk => ha _ (List.mem_map_of_mem (List.mem_range.2 hk))

/-! ### FX75 and FX85 -/

theorem decodeWord_stf (v : Variant) (x : Reg) :
    decodeWord v (encode (.stf x)) = onlyLowX v x (.stf x) := by
  simp [encode, decodeWord, decodeMisc]

theorem decodeWord_ldf (v : Variant) (x : Reg) :
    decodeWord v (encode (.ldf x)) = onlyLowX v x (.ldf x) := by
  simp [encode, decodeWord, decodeMisc]

/-- The decoder refuses FX75 and FX85 in BASE and past V7 (R45 (f), (g)). -/
theorem onlyLowX_refuses {v : Variant} (h : v = .base ∨ 8 ≤ x.val) (i : Instr) :
    ∃ e, onlyLowX v x i = .error e := by
  rw [onlyLowX_error]
  cases v with
  | base => exact .inl nofun
  | ext => exact .inr ⟨rfl, h.resolve_left nofun⟩

/-- FX75 and FX85 have their effect in EXT up to V7 (R79, R80). -/
theorem ifLowX_ext {i : Instr} {op : Word} {u : State} (hv : s.cfg.variant = .ext) (hx : x.val ≤ 7) :
    (if x.val ≤ 7 then s.ifExt i u else .next (s.raiseDecodeError op)) = .next u := by
  rw [if_pos hx, ifExt_ext (extOps_of_ext hv)]

/-- In BASE and past V7 they raise the decode error on their own word (R79, R80). -/
theorem ifLowX_refuses {i : Instr} {u : State} (h : s.cfg.variant = .base ∨ 8 ≤ x.val) :
    (if x.val ≤ 7 then s.ifExt i u else .next (s.raiseDecodeError (encode i))) =
      .next (s.raiseDecodeError (encode i)) := by
  rcases h with hbase | hx
  · exact ifLowX_base (extOps_of_base hbase)
  · exact if_neg (Nat.not_le.2 hx)

end

end Sys2Proof.Machine
end

section
/-! Settled obligations of 42_index_memory.md. -/

namespace Sys2Proof.Machine

/-- Settles O42: the sum is reduced as it is written to I, and VF is the only register the flag goes to. -/
theorem addToIndexWraps : Obligations.AddToIndexWraps := by
  intro x s
  refine ⟨fun _ => decodeWord_encode (i := .addIdx x) rfl,
    runs_of_exec rfl ⟨?_, ?_, fun hover => ?_, fun hle hclear => ?_, fun hle hkeep => ?_⟩⟩
  · rw [writeIndexFlag_i, setI_i, indexWord_toNat]
  · exact keepsRegs_writeIndexFlag (s.setI _) _
  · simp [readV_writeIndexFlag, vf, indexOverflow_iff.2 hover]
  · simp [readV_writeIndexFlag, vf, mt indexOverflow_iff.1 (Nat.not_lt.2 hle), hclear]
  · simp [readV_writeIndexFlag, vf, mt indexOverflow_iff.1 (Nat.not_lt.2 hle), hkeep]

/-- Settles O43: the glyph of the low digit in either font, FX30 in EXT; in BASE it is one of the
extended-only forms. -/
theorem glyphAddresses : Obligations.GlyphAddresses := by
  intro x s
  refine ⟨fun _ => decodeWord_encode (i := .font x) rfl, decodeWord_encode (i := .fonthi x) rfl,
    runs_of_exec rfl (glyphLo_digitOf_toNat _), fun hext => ?_, fun hbase => ?_⟩
  · exact ⟨_, exec_fonthi_of_ext hext x, keeps_setI s _, glyphHi_digitOf_toNat _⟩
  · exact raisesDecodeError_of_exec (exec_base_of_extOnly (extOps_of_base hbase) rfl nofun)

/-- Settles O44: three bytes reach three different cells, and a decimal digit fits a byte. -/
theorem bcdStoresThreeDigits : Obligations.BcdStoresThreeDigits := by
  intro x s
  have hv := (s.readV x).isLt
  have hlen : 3 ≤ memSize := by decide
  refine ⟨fun _ => decodeWord_encode (i := .bcd x) rfl, runs_of_exec rfl ⟨?_, ?_, ?_, fun a ha => ?_⟩⟩
  · exact memRead_memWriteAll_toNat s (s.ea 0) (k := 0) hlen rfl (by omega)
  · exact memRead_memWriteAll_toNat s (s.ea 0) (k := 1) hlen rfl (by omega)
  · exact memRead_memWriteAll_toNat s (s.ea 0) (k := 2) hlen rfl (by omega)
  · refine memRead_memWriteAll_outside s fun k (hk : k < 3) => ha _ ?_
    have hcases : k = 0 ∨ k = 1 ∨ k = 2 := by omega
    simpa [State.ea] using hcases

/-- Settles O45: the loop of stores, and the index register that the legacy machine moves after it. -/
theorem spillStoresTheRegisters : Obligations.SpillStoresTheRegisters := by
  intro x s
  refine ⟨fun _ => decodeWord_encode (i := .stm x) rfl,
    runs_of_exec rfl ⟨fun _ hk => stm_memRead s hk, keepsBytes_stm s x, ?_⟩⟩
  rw [advanceIndex_i_toNat, spill_cfg, spill_i, Nat.add_assoc]

/-- Settles O46: the loop of loads, and the index register that the legacy machine moves after it. -/
theorem fillLoadsTheRegisters : Obligations.FillLoadsTheRegisters := by
  intro x s
  refine ⟨fun _ => decodeWord_encode (i := .ldm x) rfl,
    runs_of_exec rfl ⟨fun k hk => ?_, fun k hk => ?_, ?_⟩⟩
  · rw [advanceIndex_readV, fill_readV s x.isLt, if_pos (Nat.lt_succ_of_le hk)]
  · rw [advanceIndex_readV, fill_readV s x.isLt, if_neg (Nat.not_lt.2 hk)]
  · rw [advanceIndex_i_toNat, fill_cfg, fill_i, Nat.add_assoc]

/-- Settles O47: up to V7 in EXT the loops move V[k] and RPL[k] for every k up to X; otherwise the decoder
refuses both words and both forms raise the error on theirs. -/
theorem rplSpillAndFill : Obligations.RplSpillAndFill := by
  intro x s
  refine ⟨fun hext hx => ?_, fun h => ?_⟩
  · have hn : x.val + 1 ≤ 8 := Nat.succ_le_succ hx
    have hwf : (Variant.ext.isExt && decide (x.val ≤ 7)) = true := by simp [Variant.isExt, hx]
    refine ⟨decodeWord_encode (i := .stf x) hwf, decodeWord_encode (i := .ldf x) hwf,
      ⟨_, ifLowX_ext hext hx, keeps_spillRpl s _, fun k r hr => ?_⟩,
      ⟨_, ifLowX_ext hext hx, keeps_fillRpl s _, fun k r hr hrx => ?_, fun r hxr => ?_⟩⟩
    · rw [spillRpl_readRpl s hn, ← hr, loopReg_of_val]
      simp only [Fin.le_def, Nat.lt_succ_iff]
    · rw [fillRpl_readV s hn, if_pos (Nat.lt_succ_of_le hrx), hr, loopRpl_of_val]
    · rw [fillRpl_readV s hn, if_neg (Nat.not_lt.2 hxr)]
  · refine ⟨?_, ?_, raisesDecodeError_of_exec (ifLowX_refuses h),
      raisesDecodeError_of_exec (ifLowX_refuses h)⟩
    · obtain ⟨e, he⟩ := onlyLowX_refuses h (.stf x)
      exact ⟨e, (decodeWord_stf _ x).trans he⟩
    · obtain ⟨e, he⟩ := onlyLowX_refuses h (.ldf x)
      exact ⟨e, (decodeWord_ldf _ x).trans he⟩

/-- Settles O41: LDI writes the zero-extended address to I. -/
theorem loadIndex : Obligations.LoadIndex :=
  fun nnn _ => ⟨fun _ => decodeWord_encode (i := .ldIdx nnn) rfl, runs_of_exec rfl (zextAddr_toNat nnn)⟩

end Sys2Proof.Machine
end

section
/-! The display instructions (43_display.md R90 to R97): an extended-only form in either variant, what a draw
leaves on the screen and in VF, and the pixels the draw word selects. -/

namespace Sys2Proof.Machine

/-! ### Extended-only forms -/

section
variable {i : Instr} {s u : State}

/-- In EXT an extended-only form runs with the frame of its effect (R44). -/
theorem runs_of_ifExt {l : List Part} {post : State → Prop} (hext : s.cfg.variant = .ext)
    (h : exec i s = s.ifExt i u) (hu : KeepsAllBut l s u) (hp : post u) : Runs i s l post :=
  ⟨u, h.trans (ifExt_ext (extOps_of_ext hext) i u), hu, hp⟩

/-- In BASE an extended-only form raises the decode error on its own word (R44, log 14). -/
theorem raisesDecodeError_of_ifExt (hbase : s.cfg.variant = .base) (h : exec i s = s.ifExt i u) :
    RaisesDecodeError i s (encode i) :=
  raisesDecodeError_of_exec (h.trans (ifExt_base (extOps_of_base hbase) i u))

end

/-! ### What a draw does -/

/-- A draw writes VF and no other register (R96, R97). -/
theorem keepsRegs_drawPixels (s : State) (ps : List (Nat × Nat)) :
    KeepsRegsBut [15] s (s.drawPixels ps) :=
  keepsRegs_writeV (s.setFb (flipAll ps s.fb).1) vf _

section
variable {s : State} {ps : List (Nat × Nat)} (hd : ps.Nodup)
  (hin : ∀ p ∈ ps, p.1 < s.width ∧ p.2 < s.height)
include hd hin

/-- The pixels that a draw changes are the listed ones. -/
theorem drawPixels_pixel_ne_iff (a b : Nat) :
    pixel (s.drawPixels ps).fb a b ≠ pixel s.fb a b ↔ (a, b) ∈ ps := by
  rw [drawPixels_pixel s ps hd hin]
  by_cases hp : (a, b) ∈ ps
  · simp [hp]
  · simp [hp]

theorem drawPixels_vf_of_lit {p : Nat × Nat} (hp : p ∈ ps) (hlit : pixel s.fb p.1 p.2 = true) :
    (s.drawPixels ps).readV vf = 1 := by
  rw [drawPixels_vf s ps hd hin, List.any_eq_true.2 ⟨p, hp, hlit⟩]
  rfl

theorem drawPixels_vf_of_dark (hdark : ∀ p ∈ ps, pixel s.fb p.1 p.2 = false) :
    (s.drawPixels ps).readV vf = 0 := by
  have hnone : (ps.any fun p => pixel s.fb p.1 p.2) = false :=
    List.any_eq_false.2 fun p hp => Bool.eq_false_iff.1 (hdark p hp)
  rw [drawPixels_vf s ps hd hin, hnone]
  rfl

/-- An instruction that flips distinct pixels of the active region is a draw of those pixels. -/
theorem drawResult_of_exec {i : Instr} {flips : Nat → Nat → Prop}
    (h : exec i s = .next (s.drawPixels ps)) (hflips : ∀ a b, (a, b) ∈ ps ↔ flips a b) :
    DrawResult i s flips := by
  refine ⟨_, h, keeps_drawPixels s ps, keepsRegs_drawPixels s ps, rfl, fun a b => ?_, ?_,
    fun hnone => ?_⟩
  · rw [drawPixels_pixel_ne_iff hd hin, hflips]
  · rintro ⟨a, b, hab, hlit⟩
    exact drawPixels_vf_of_lit hd hin ((hflips a b).2 hab) hlit
  · refine drawPixels_vf_of_dark hd hin fun p hp => Bool.eq_false_iff.2 fun hlit => ?_
    exact hnone ⟨p.1, p.2, (hflips p.1 p.2).1 hp, hlit⟩

/-- Flipping the same pixels twice restores the screen. -/
theorem drawPixels_twice_fb : ((s.drawPixels ps).drawPixels ps).fb = s.fb := by
  refine framebuffer_ext fun a b _ _ => ?_
  rw [drawPixels_pixel (s.drawPixels ps) ps hd hin, drawPixels_pixel s ps hd hin, Bool.xor_assoc,
    Bool.xor_self, Bool.xor_false]

/-- On a blank screen the first draw meets no lit pixel, and if it lights one the second draw meets it. -/
theorem drawPixels_twice_vf (hblank : s.fb = blankScreen)
    (hlights : (s.drawPixels ps).fb ≠ blankScreen) :
    (s.drawPixels ps).readV vf = 0 ∧ ((s.drawPixels ps).drawPixels ps).readV vf = 1 := by
  have hdark : ∀ a b, pixel s.fb a b = false := fun a b => by rw [hblank, pixel_blankScreen]
  have hne : ps ≠ [] := by
    rintro rfl
    exact hlights hblank
  obtain ⟨p, hp⟩ := List.exists_mem_of_ne_nil ps hne
  have hlit : pixel (s.drawPixels ps).fb p.1 p.2 = true := by
    simp [drawPixels_pixel s ps hd hin, hdark, hp]
  exact ⟨drawPixels_vf_of_dark hd hin fun q _ => hdark q.1 q.2,
    drawPixels_vf_of_lit (s := s.drawPixels ps) hd hin hp hlit⟩

end

/-! ### The pixels of a draw word -/

/-- The pixels that the term DXYN flips; with N = 0 in EXT it is DXY0 (R44, log 14). -/
def State.drawnPixels (s : State) (x y : Reg) (n : Fin 16) : List (Nat × Nat) :=
  if s.cfg.extOps ∧ n = 0 then s.largePixels (s.originX x) (s.originY y)
  else s.smallPixels (s.originX x) (s.originY y) n.val

section
variable (s : State) (x y : Reg) (n : Fin 16)

theorem exec_drw : exec (.drw x y n) s = .next (s.drawPixels (s.drawnPixels x y n)) :=
  congrArg Host.Outcome.next (apply_ite s.drawPixels _ _ _).symm

theorem drawnPixels_nodup : (s.drawnPixels x y n).Nodup := by
  unfold State.drawnPixels
  split
  · exact largePixels_nodup s _ _
  · exact smallPixels_nodup s _ _ _

theorem drawnPixels_inside : ∀ p ∈ s.drawnPixels x y n, p.1 < s.width ∧ p.2 < s.height := by
  unfold State.drawnPixels
  split
  · exact largePixels_inside s _ _
  · exact smallPixels_inside s _ _ _

/-- A draw leaves the sprite, the mode and the origin of a second draw as they were, unless a coordinate is
read from VF. -/
theorem drawnPixels_drawPixels {x y : Reg} (hx : x ≠ 15) (hy : y ≠ 15) (ps : List (Nat × Nat)) :
    (s.drawPixels ps).drawnPixels x y n = s.drawnPixels x y n := by
  have hregs := keepsRegs_drawPixels s ps
  have hox : (s.drawPixels ps).originX x = s.originX x :=
    congrArg (·.toNat % s.width) (hregs x (by simpa using hx))
  have hoy : (s.drawPixels ps).originY y = s.originY y :=
    congrArg (·.toNat % s.height) (hregs y (by simpa using hy))
  rw [State.drawnPixels, hox, hoy]
  rfl

end

/-- Where DXYN is not DXY0 it is the 8-wide draw (R96). -/
theorem exec_drw_small {s : State} {n : Fin 16} (x y : Reg)
    (h : ¬ (s.cfg.variant = .ext ∧ n = 0)) :
    exec (.drw x y n) s =
      .next (s.drawPixels (s.smallPixels (s.originX x) (s.originY y) n.val)) := by
  have hsmall : ¬ (s.cfg.extOps = true ∧ n = 0) := by
    rintro ⟨hext, hn⟩
    rcases variant_cases s.cfg with hv | hv
    · exact absurd hext (by simp [extOps_of_base hv])
    · exact h ⟨hv, hn⟩
  rw [exec_drw, State.drawnPixels, if_neg hsmall]

/-- In EXT the term DXY0 is the 16 by 16 draw (R97). -/
theorem exec_drw16_of_ext {s : State} (x y : Reg) (h : s.cfg.variant = .ext) :
    exec (.drw16 x y) s = .next (s.drawPixels (s.largePixels (s.originX x) (s.originY y))) :=
  congrArg Host.Outcome.next (if_pos (extOps_of_ext h))

/-- A draw word is well formed as DXYN exactly where it is not DXY0 (R44). -/
theorem wf_drw {v : Variant} {n : Fin 16} (x y : Reg) (h : ¬ (v = .ext ∧ n = 0)) :
    (Instr.drw x y n).wf v = true := by
  cases v with
  | base => rfl
  | ext => simpa [Instr.wf, Variant.isExt] using h

end Sys2Proof.Machine
end

section
/-! Settled obligations of 43_display.md. -/

namespace Sys2Proof.Machine

/-- Settles O49: the scroll replaces the active pixels only, row by row. -/
theorem scrollDownMovesRows : Obligations.ScrollDownMovesRows := by
  intro n s
  refine ⟨decodeWord_encode (i := .scd n) rfl, fun hext => ?_,
    fun hbase => raisesDecodeError_of_ifExt (i := .scd n) hbase rfl⟩
  exact runs_of_ifExt hext rfl (keeps_setFb s _) fun x y =>
    pixel_scrollDown s.width s.height n.val s.fb x y (height_le s)

/-- Settles O50: each scroll replaces the active pixels only, column by column. -/
theorem sidewaysScrollsMoveColumns : Obligations.SidewaysScrollsMoveColumns := by
  refine ⟨decodeWord_encode (i := .scr) rfl, decodeWord_encode (i := .scl) rfl,
    fun s => ⟨fun hext => ?_, fun hext => ?_, fun hbase => ⟨?_, ?_⟩⟩⟩
  · exact runs_of_ifExt hext rfl (keeps_setFb s _) fun x y =>
      pixel_scrollRight4 s.width s.height s.fb x y (height_le s) (width_le s)
  · exact runs_of_ifExt hext rfl (keeps_setFb s _) fun x y =>
      pixel_scrollLeft4 s.width s.height s.fb x y (height_le s)
  · exact raisesDecodeError_of_ifExt (i := .scr) hbase rfl
  · exact raisesDecodeError_of_ifExt (i := .scl) hbase rfl

/-- Settles O52: the pixels flipped are the listed ones, and the list is that of the sprite's 1 bits. -/
theorem drawFlipsTheSpriteBits : Obligations.DrawFlipsTheSpriteBits := by
  intro x y n s hn
  refine ⟨decodeWord_encode (wf_drw x y hn), ?_⟩
  refine drawResult_of_exec (smallPixels_nodup s _ _ _) (smallPixels_inside s _ _ _)
    (exec_drw_small x y hn) fun a b => ?_
  rw [mem_smallPixels]
  refine exists₂_congr fun r c => ?_
  simp only [State.smallBit, State.originX, State.originY]
  tauto

/-- Settles O53: in EXT the list is that of the large sprite's 1 bits; in BASE a sprite of no rows has
none. -/
theorem largeDrawFlipsTheSpriteBits : Obligations.LargeDrawFlipsTheSpriteBits := by
  intro x y s
  refine ⟨decodeWord_encode (i := .drw16 x y) rfl, decodeWord_encode (i := .drw x y 0) rfl,
    fun hext => ?_, fun hbase => ?_⟩
  · refine drawResult_of_exec (largePixels_nodup s _ _) (largePixels_inside s _ _)
      (exec_drw16_of_ext x y hext) fun a b => ?_
    rw [mem_largePixels]
    refine exists₂_congr fun r c => ?_
    simp only [State.largeBit, State.originX, State.originY]
    tauto
  · have hsmall : ¬ (s.cfg.variant = .ext ∧ (0 : Fin 16) = 0) := by simp [hbase]
    exact drawResult_of_exec (smallPixels_nodup s _ _ _) (smallPixels_inside s _ _ _)
      (exec_drw_small x y hsmall) fun a b => by simp [State.smallPixels]

/-- Settles O54: the first draw changes no register but VF, so the second one flips the same pixels. -/
theorem drawingTwiceRestoresTheScreen : Obligations.DrawingTwiceRestoresTheScreen := by
  intro x y n s hx hy
  have hd := drawnPixels_nodup s x y n
  have hin := drawnPixels_inside s x y n
  refine ⟨_, _, exec_drw s x y n, exec_drw _ x y n, ?_⟩
  rw [drawnPixels_drawPixels s n hx hy]
  exact ⟨drawPixels_twice_fb hd hin, drawPixels_twice_vf hd hin⟩

/-- Settles O48: the blank screen has no lit pixel. -/
theorem clearDarkensEveryPixel : Obligations.ClearDarkensEveryPixel :=
  ⟨fun _ => decodeWord_encode (i := .cls) rfl, fun _ => runs_of_exec rfl pixel_blankScreen⟩

/-- Settles O51: both switches set the mode, which gives the active size, and put up the blank screen. -/
theorem resolutionSwitchClears : Obligations.ResolutionSwitchClears := by
  refine ⟨decodeWord_encode (i := .low) rfl, decodeWord_encode (i := .high) rfl,
    fun s => ⟨fun hext => ?_, fun hext => ?_, fun hbase => ⟨?_, ?_⟩⟩⟩
  · exact runs_of_ifExt hext rfl (keeps_switchResolution s false) ⟨rfl, rfl, rfl, pixel_blankScreen⟩
  · exact runs_of_ifExt hext rfl (keeps_switchResolution s true) ⟨rfl, rfl, rfl, pixel_blankScreen⟩
  · exact raisesDecodeError_of_ifExt (i := .low) hbase rfl
  · exact raisesDecodeError_of_ifExt (i := .high) hbase rfl

end Sys2Proof.Machine
end

section
/-! The keypad (44_input_timers.md R99 to R104): which key CurrentKey answers, a skip on a sampled level, and
the two outcomes of FX0A. -/

namespace Sys2Proof.Machine

section
variable {s : State} {x : Reg}

/-! ### The lowest key down -/

/-- CurrentKey answers the key that is down with every lower one up: there is only one such key (R100). -/
theorem currentKey_eq_some_iff {levels : BitVec 16} {k : Fin 16} :
    currentKey levels = some k ↔
      keyDown levels k = true ∧ ∀ j, j < k → keyDown levels j = false := by
  refine ⟨currentKey_some, fun ⟨hdown, hlower⟩ => ?_⟩
  cases hcur : currentKey levels with
  | none => simp [currentKey_none.1 hcur k] at hdown
  | some j =>
    obtain ⟨hj, hjlower⟩ := currentKey_some hcur
    rcases lt_trichotomy j k with hlt | rfl | hgt
    · simp [hlower j hlt] at hj
    · rfl
    · simp [hjlower k hgt] at hdown

/-- CurrentKey answers none exactly on the snapshot without a bit (R100). -/
theorem currentKey_eq_none_iff {levels : BitVec 16} : currentKey levels = none ↔ levels = 0 := by
  rw [currentKey_none]
  constructor
  · intro hup
    refine BitVec.eq_of_getLsbD_eq fun k hk => ?_
    rw [BitVec.ofNat_eq_ofNat, BitVec.getLsbD_zero]
    exact hup ⟨k, hk⟩
  · rintro rfl k
    exact BitVec.getLsbD_zero

/-! ### Skips on a key -/

/-- The key a skip looks at is given by the low four bits of V[X] (R101, R102, decision D7). -/
theorem keyDown_digitOf (levels : BitVec 16) (b : Byte) :
    keyDown levels (digitOf b) = levels.getLsbD (b.toNat % 16) := by
  rw [keyDown, digitOf_val]

/-- A skip that samples the levels moves their feed on and, under its condition, PC. -/
theorem runs_sampledKeys_skipIf {i : Instr} {c : Bool}
    (h : exec i s = .next (s.sampledKeys.skipIf c)) :
    Runs i s [.pc, .keys] fun t =>
      t.keys = s.keys.next ∧ t.pc = if c = true then s.pc + 2 else s.pc := by
  have hframe := keeps_skipIf s.sampledKeys c
  refine ⟨_, h, ?_, hframe .keys (by decide), skipIf_pc s.sampledKeys c⟩
  exact ((keeps_setKeys s _).append hframe).mono (by decide)

/-! ### The wait for a key -/

theorem rewindPc_pc_toNat (s : State) : s.rewindPc.pc.toNat = (s.pc.toNat + 65534) % 65536 := by
  rw [State.rewindPc, setPc_pc, BitVec.toNat_sub, Nat.add_comm]
  rfl

theorem keyByte_toNat (k : Fin 16) : (keyByte k).toNat = k.val := by
  rw [keyByte, BitVec.toNat_ofNat, Nat.mod_eq_of_lt (k.isLt.trans (by decide))]

/-- FX0A with no key down goes back to its own address (R103). -/
theorem exec_wkey_of_none (h : currentKey s.keyLevels = none) :
    exec (.wkey x) s = .next s.sampledKeys.rewindPc.yieldStep := by
  simp only [exec, execWkey, h, State.awaitKey]

/-- FX0A with a key down takes it and waits for its release (R103). -/
theorem exec_wkey_of_some {k : Fin 16} (h : currentKey s.keyLevels = some k) :
    exec (.wkey x) s =
      .next ((s.sampledKeys.writeV x (keyByte k)).setWait (.release k)).yieldStep := by
  simp only [exec, execWkey, h, State.awaitKey]

/-- While the release of a key is awaited, the spec's Step() is the poll of that key (R39). -/
theorem coreStep_of_release {k : Fin 16} (h : s.wait = .release k) :
    coreStep s = .next (s.releasePoll k) := by
  simp only [coreStep, h]

end

end Sys2Proof.Machine
end

section
/-! Settled obligations of 44_input_timers.md. -/

namespace Sys2Proof.Machine

/-- Settles O55: the search in ascending order answers the lowest key down, and none on the empty
snapshot. -/
theorem currentKeyIsTheLowest : Obligations.CurrentKeyIsTheLowest :=
  fun _ => ⟨fun _ => currentKey_eq_some_iff, currentKey_eq_none_iff⟩

/-- Settles O57: CurrentKey decides between the rewind, which writes PC, and the taking of the key, which
writes V[X] and the wait; the sample and the yield are common to both. -/
theorem waitKeyRewindsOrTakesTheKey : Obligations.WaitKeyRewindsOrTakesTheKey := by
  intro x s
  refine ⟨fun _ => decodeWord_encode (i := .wkey x) rfl, fun hup => ?_, fun k hdown hlower => ?_⟩
  · refine ⟨_, exec_wkey_of_none (currentKey_eq_none_iff.2 hup), ?_,
      rewindPc_pc_toNat s.sampledKeys, rfl, rfl⟩
    exact (((keeps_setKeys s _).append (keeps_setPc _ _)).append (keeps_setYielded _ _)).mono
      (by decide)
  · refine ⟨_, exec_wkey_of_some (currentKey_eq_some_iff.2 ⟨hdown, hlower⟩), ?_, ?_,
      keepsRegs_writeV s.sampledKeys x _, rfl, rfl, rfl⟩
    · exact ((((keeps_setKeys s _).append (keeps_writeV _ _ _)).append (keeps_setWait _ _)).append
        (keeps_setYielded _ _)).mono (by decide)
    · exact (congrArg BitVec.toNat (readV_writeV_self s.sampledKeys x _)).trans (keyByte_toNat k)

/-- Settles O56: both are skips on the sampled level of the key of V[X], EXA1 on its negation. -/
theorem keySkips : Obligations.KeySkips := by
  intro x s
  refine ⟨fun _ => ⟨decodeWord_encode (i := .skp x) rfl, decodeWord_encode (i := .sknp x) rfl⟩, ?_, ?_⟩
  · simpa only [keyDown_digitOf] using runs_sampledKeys_skipIf (i := .skp x) (s := s) rfl
  · simpa only [keyDown_digitOf, Bool.not_eq_true', ← Bool.not_eq_true, ite_not] using
      runs_sampledKeys_skipIf (i := .sknp x) (s := s) rfl

/-- Settles O58: Step() is the poll of key k, which yields or ends the wait by the level of k alone. -/
theorem releasePollWaitsForItsKey : Obligations.ReleasePollWaitsForItsKey := by
  intro s k hwait
  rw [coreStep_of_release hwait]
  refine ⟨fun hdown => ?_, fun hup => ?_⟩
  · rw [releasePoll_down hdown]
    exact ⟨_, rfl, rfl, rfl, (keeps_setKeys s _).append (keeps_setYielded _ _)⟩
  · rw [releasePoll_up hup]
    exact ⟨_, rfl, rfl, rfl, (keeps_setKeys s _).append (keeps_setWait _ _)⟩

/-- Settles O59: each copies one byte between V[X] and a timer, and the sound output tests ST. -/
theorem timerReadsAndWrites : Obligations.TimerReadsAndWrites := by
  intro x s
  refine ⟨fun _ => ⟨decodeWord_encode (i := .getdt x) rfl, decodeWord_encode (i := .setdt x) rfl,
    decodeWord_encode (i := .setst x) rfl⟩, runs_writeV rfl, runs_of_exec rfl rfl,
    runs_of_exec rfl ⟨rfl, ?_⟩⟩
  rw [State.soundOn, setSt_st, decide_eq_true_iff]

end Sys2Proof.Machine
end

section
/-! The bookkeeping of the burst (60_exceptions.md R119 to R121): what it leaves of the state that the spec's
Step() answers, and that Step() leaves its counts alone. -/

namespace Sys2Proof.Machine

section
variable {s t : State}

/-! ### What follows a step -/

/-- A step that halts the run is the last thing its tick does (R120, decision D27). -/
theorem finishStep_of_not_running (h : s.run ≠ .running) : s.finishStep = s := by
  cases hr : s.run with
  | running => exact absurd hr h
  | halted c op pc => simp only [State.finishStep, hr]

theorem finishStep_of_running (h : s.run = .running) :
    s.finishStep = (s.setBurst (if s.endsBurst then 0 else s.burst + 1)).setPresents
      (if s.endsBurst then s.presents + 1 else s.presents) := by
  simp only [State.finishStep, h]

@[simp] theorem finishStep_run (s : State) : s.finishStep.run = s.run :=
  keeps_finishStep s .run (by decide)

/-- A step ends its burst if it yielded or used up the budget (R121). -/
theorem endsBurst_iff : s.endsBurst = true ↔ s.yielded = true ∨ s.cfg.ipt ≤ s.burst + 1 := by
  rw [State.endsBurst, Bool.or_eq_true, decide_eq_true_iff]

theorem finishStep_of_ends (hrun : s.run = .running) (hend : s.endsBurst = true) :
    s.finishStep = (s.setBurst 0).setPresents (s.presents + 1) := by
  simp only [finishStep_of_running hrun, hend, if_true]

theorem finishStep_of_goes_on (hrun : s.run = .running) (hend : s.endsBurst = false) :
    s.finishStep = (s.setBurst (s.burst + 1)).setPresents s.presents := by
  simp only [finishStep_of_running hrun, hend, Bool.false_eq_true, if_false]

/-! ### Step() and the counts -/

theorem burst_notMem_mayChange (i : Instr) : .burst ∉ mayChange i := by
  cases i <;> simp [mayChange]

theorem presents_notMem_mayChange (i : Instr) : .presents ∉ mayChange i := by
  cases i <;> simp [mayChange]

theorem coreStep_burst (h : coreStep s = .next t) : t.burst = s.burst :=
  coreStep_same (p := .burst) h (by decide) fun i _ => burst_notMem_mayChange i

theorem coreStep_presents (h : coreStep s = .next t) : t.presents = s.presents :=
  coreStep_same (p := .presents) h (by decide) fun i _ => presents_notMem_mayChange i

@[simp] theorem enterStep_presents (s : State) : s.enterStep.presents = s.presents :=
  keeps_enterStep s .presents (by decide)

/-- The spec's Step() answers the configuration and the counts that the step began with. -/
theorem counts_of_coreStep_enterStep (h : coreStep s.enterStep = .next t) :
    t.cfg = s.cfg ∧ t.burst = s.burst ∧ t.presents = s.presents :=
  ⟨(coreStep_cfg h).trans (enterStep_cfg s), (coreStep_burst h).trans (enterStep_burst s),
    (coreStep_presents h).trans (enterStep_presents s)⟩

/-! ### The end of a tick -/

/-- The tick of `s` is over in `t`: the run halted without a present pulse (R120, decision D27), or the next
boundary is reached with one. -/
def State.TickOver (s t : State) : Prop :=
  (t.run ≠ .running ∧ t.presents = s.presents) ∨
    (t.run = .running ∧ t.burst = 0 ∧ t.presents = s.presents + 1)

/-- The tick goes on from `s` to `t`: one more step is counted, and the budget is not used up (R121). -/
structure State.TickGoesOn (s t : State) : Prop where
  run : t.run = .running
  cfg : t.cfg = s.cfg
  burst : t.burst = s.burst + 1
  budget : t.burst < t.cfg.ipt
  presents : t.presents = s.presents

/-- What is over after the tick has gone on was over from the start of it. -/
theorem State.TickGoesOn.tickOver {u : State} (h : s.TickGoesOn t) (hu : t.TickOver u) : s.TickOver u := by
  unfold State.TickOver at hu ⊢
  rwa [h.presents] at hu

/-- The bookkeeping after a step ends the tick or counts the step. -/
theorem finishStep_tick (s : State) : s.TickOver s.finishStep ∨ s.TickGoesOn s.finishStep := by
  by_cases hrun : s.run = .running
  · cases hend : s.endsBurst with
    | true =>
      rw [finishStep_of_ends hrun hend]
      exact .inl (.inr ⟨hrun, rfl, rfl⟩)
    | false =>
      rw [finishStep_of_goes_on hrun hend]
      exact .inr ⟨hrun, rfl, rfl, burst_succ_lt_of_goes_on hend, rfl⟩
  · rw [finishStep_of_not_running hrun]
    exact .inl (.inl ⟨hrun, rfl⟩)

/-- A step of a running machine ends its tick, or the tick goes on. -/
theorem step_tick (h : s.run = .running) :
    ∃ t, step s = .next t ∧ (s.TickOver t ∨ s.TickGoesOn t) := by
  rcases step_cases h with ⟨-, hs⟩ | ⟨-, u, hu, hs⟩
  · exact ⟨_, hs, .inl (.inl ⟨nofun, rfl⟩)⟩
  · obtain ⟨hcfg, hburst, hpresents⟩ := counts_of_coreStep_enterStep hu
    refine ⟨_, hs, (finishStep_tick u).imp (fun hover => ?_) fun hon => ?_⟩
    · rwa [State.TickOver, hpresents] at hover
    · exact ⟨hon.run, hon.cfg.trans hcfg, by rw [hon.burst, hburst], hon.budget,
        hon.presents.trans hpresents⟩

theorem run_succ_of_step {k : Nat} (h : step s = .next t) :
    Host.Core.run Sys2Proof.core (k + 1) s = Host.Core.run Sys2Proof.core k t := by
  have hcore : Sys2Proof.core.step s = .next t := h
  simp only [Host.Core.run, hcore]

/-- With `n` steps of the budget left, the tick is over after at most `n` steps. -/
theorem tick_over_within (n : Nat) (hrun : s.run = .running) (hburst : s.burst < s.cfg.ipt)
    (hleft : s.cfg.ipt ≤ s.burst + n) :
    ∃ k, 1 ≤ k ∧ k ≤ n ∧ ∃ t, Host.Core.run Sys2Proof.core k s = .next t ∧ s.TickOver t := by
  induction n generalizing s with
  | zero => omega
  | succ n ih =>
    obtain ⟨t, hstep, hover | hon⟩ := step_tick hrun
    · exact ⟨1, le_rfl, Nat.le_add_left 1 n, t, run_succ_of_step hstep, hover⟩
    · have hleft' : t.cfg.ipt ≤ t.burst + n := by
        rw [hon.cfg, hon.burst]
        omega
      obtain ⟨k, -, hk, u, hu, hover⟩ := ih hon.run hon.budget hleft'
      exact ⟨k + 1, Nat.le_add_left 1 k, Nat.add_le_add_right hk 1, u,
        (run_succ_of_step hstep).trans hu, hon.tickOver hover⟩

end

end Sys2Proof.Machine
end

section
/-! The halts (60_exceptions.md R108 to R113): a word that does not decode, and which instructions may write
RUN. -/

namespace Sys2Proof.Machine

section
variable {s t : State}

/-- Step() on a word that does not decode (30_encoding.md R39). -/
theorem coreStep_of_error {e : Illegal} (hw : s.wait = .none)
    (hd : decodeWord s.cfg.variant s.fetchWord = .error e) :
    coreStep s = .next (s.advancePc.raiseDecodeError s.fetchWord) := by
  simp only [coreStep, hw, hd]

theorem releasePoll_run (s : State) (k : Fin 16) : (s.releasePoll k).run = s.run :=
  keeps_releasePoll s k .run (by decide)

/-- In EXT an extended-only form writes RUN if its effect does. -/
theorem run_of_ifExt {i : Instr} {u : State} (hext : s.cfg.extOps = true)
    (h : s.ifExt i u = .next t) (hu : u.run = s.run) : t.run = s.run := by
  cases (ifExt_ext hext i u).symm.trans h
  exact hu

/-- FX75 and FX85 write RUN in EXT with X at most 7 if their effect does. -/
theorem run_of_ifLowX {i : Instr} {x : Reg} {op : Word} {u : State}
    (hwf : (s.cfg.extOps && decide (x.val ≤ 7)) = true)
    (h : (if x.val ≤ 7 then s.ifExt i u else .next (s.raiseDecodeError op)) = .next t)
    (hu : u.run = s.run) : t.run = s.run := by
  rw [Bool.and_eq_true, decide_eq_true_iff] at hwf
  rw [if_pos hwf.2] at h
  exact run_of_ifExt hwf.1 h hu

/-- The instructions that the decoder gives write RUN in two cases only: 00EE on an empty stack, and 00FD
(R110, R111). -/
theorem exec_run_cases {i : Instr} (hwf : i.wf s.cfg.variant = true) (h : exec i s = .next t) :
    t.run = s.run ∨ (i = .ret ∧ s.stk = [] ∧ t = s.raiseStackUnderflow) ∨
      (i = .exit ∧ s.cfg.variant = .ext ∧ t = s.haltExit) := by
  cases i with
  | ret =>
    simp only [exec, execRet] at h
    split at h
    · cases h; exact .inl rfl
    · next hlast => cases h; exact .inr (.inl ⟨rfl, List.getLast?_eq_none_iff.1 hlast, rfl⟩)
  | exit =>
    rcases variant_cases s.cfg with hv | hv
    · rw [hv] at hwf; cases hwf
    · cases (exec_exit_of_ext hv).symm.trans h
      exact .inr (.inr ⟨rfl, hv, rfl⟩)
  | scd | scr | scl => exact .inl (run_of_ifExt hwf h (setFb_run s _))
  | low | high => exact .inl (run_of_ifExt hwf h (keeps_switchResolution s _ .run (by decide)))
  | fonthi x => exact .inl (run_of_ifExt hwf h (setI_run s _))
  | stf x => exact .inl (run_of_ifLowX hwf h (keeps_spillRpl s _ .run (by decide)))
  | ldf x => exact .inl (run_of_ifLowX hwf h (keeps_fillRpl s _ .run (by decide)))
  | _ => exact .inl (exec_keeps h .run (by simp [mayChange]))

/-- Where Step() takes a running machine to a halted one, it did not poll, and the word at PC is the cause
(R113). -/
theorem coreStep_halts {c : HaltCause} {op pc : Word} (hr : s.run = .running)
    (h : coreStep s = .next t) (ht : t.run = .halted c op pc) :
    s.wait = .none ∧ op = s.fetchWord ∧ pc = s.pc + 2 ∧
      ((c = .decode ∧ ∃ e, decodeWord s.cfg.variant s.fetchWord = .error e) ∨
       (c = .stackUnderflow ∧ s.fetchWord = 0x00EE#16 ∧ s.stk = []) ∨
       (c = .exit ∧ s.fetchWord = 0x00FD#16 ∧ s.cfg.variant = .ext)) := by
  rcases coreStep_cases s with ⟨k, -, hc⟩ | ⟨hw, i, hd, hc⟩ | ⟨hw, e, hd, hc⟩
  · cases hc.symm.trans h
    rw [releasePoll_run, hr] at ht
    cases ht
  · obtain ⟨henc, hwf⟩ := word_of_decodeWord hd
    rcases exec_run_cases (s := s.advancePc) hwf (hc.symm.trans h) with
      hrun | ⟨rfl, hstk, rfl⟩ | ⟨rfl, hv, rfl⟩
    · cases ht.symm.trans (hrun.trans hr)
    · cases ht
      exact ⟨hw, henc, rfl, .inr (.inl ⟨rfl, henc.symm, hstk⟩)⟩
    · cases ht
      exact ⟨hw, henc, rfl, .inr (.inr ⟨rfl, henc.symm, hv⟩)⟩
  · cases hc.symm.trans h
    cases ht
    exact ⟨hw, rfl, rfl, .inl ⟨rfl, e, hd⟩⟩

@[simp] theorem enterStep_stk (s : State) : s.enterStep.stk = s.stk :=
  keeps_enterStep s .stk (by decide)

end

end Sys2Proof.Machine
end

section
/-! The yield (60_exceptions.md R122): which steps raise the signal. -/

namespace Sys2Proof.Machine

section
variable {s t : State} {i : Instr}

/-- The draws and FX0A alone write the yield signal. -/
theorem yielded_mem_mayChange : .yielded ∈ mayChange i ↔
    (∃ x y n, i = .drw x y n) ∨ (∃ x y, i = .drw16 x y) ∨ (∃ x, i = .wkey x) := by
  cases i <;> simp [mayChange]

/-- Both draws end in a yield, whichever of them the draw word selects (R96, R97). -/
theorem draw_yielded (s : State) (large : Prop) [Decidable large] (x y : Reg) (n : Nat) :
    (if large then s.drawLarge x y else s.drawSmall x y n).yielded = true := by
  split
  · rfl
  · rfl

/-- An instruction that may write the yield signal raises it. -/
theorem exec_yields (h : exec i s = .next t) (hi : .yielded ∈ mayChange i) : t.yielded = true := by
  rcases yielded_mem_mayChange.1 hi with ⟨x, y, n, rfl⟩ | ⟨x, y, rfl⟩ | ⟨x, rfl⟩
  · cases h; exact draw_yielded s _ x y _
  · cases h; exact draw_yielded s _ x y _
  · cases h; rfl

/-- With no yield pending, an instruction yields exactly if it may write the signal. -/
theorem exec_yielded_iff (hs : s.yielded = false) (h : exec i s = .next t) :
    t.yielded = true ↔ .yielded ∈ mayChange i := by
  refine ⟨fun ht => ?_, exec_yields h⟩
  by_contra hi
  have hkept : t.yielded = s.yielded := exec_keeps h .yielded hi
  rw [ht, hs] at hkept
  cases hkept

/-- With no yield pending, a release poll yields exactly if its key is down (R104). -/
theorem releasePoll_yielded_iff (hs : s.yielded = false) (k : Fin 16) :
    (s.releasePoll k).yielded = true ↔ s.keyLevels.getLsbD k.val = true := by
  cases hdown : keyDown s.keyLevels k with
  | true =>
    rw [releasePoll_down hdown]
    exact ⟨fun _ => hdown, fun _ => rfl⟩
  | false =>
    rw [releasePoll_up hdown]
    exact ⟨fun hyield => absurd (hs.symm.trans hyield) (by decide),
      fun hlevel => absurd (hdown.symm.trans hlevel) (by decide)⟩

end

end Sys2Proof.Machine
end

section
/-! The stop signal (60_exceptions.md R123): each operation of a step within a tick commutes with the
replacement of the feed of STOP. -/

namespace Sys2Proof.Machine

section
variable (s : State) (f : Feed Bool)

/-! ### Shared operations -/

/-- A conditional with the images of both branches is the image of the conditional. -/
theorem ite_eq_of_branches {α β : Type} (g : α → β) {p : Prop} [Decidable p] {a b : α} {a' b' : β}
    (ha : a' = g a) (hb : b' = g b) : (if p then a' else b') = g (if p then a else b) := by
  rw [ha, hb, apply_ite g]

theorem skipIf_setStop (c : Bool) : (s.setStop f).skipIf c = (s.skipIf c).setStop f :=
  ite_eq_of_branches (State.setStop · f) rfl rfl

theorem writeLogic_setStop (x : Reg) (r : Byte) :
    (s.setStop f).writeLogic x r = (s.writeLogic x r).setStop f :=
  ite_eq_of_branches (State.setStop · f) rfl rfl

theorem advanceIndex_setStop (n : Nat) :
    (s.setStop f).advanceIndex n = (s.advanceIndex n).setStop f :=
  ite_eq_of_branches (State.setStop · f) rfl rfl

theorem draw_setStop (large : Prop) [Decidable large] (x y : Reg) (n : Nat) :
    (if large then (s.setStop f).drawLarge x y else (s.setStop f).drawSmall x y n) =
      (if large then s.drawLarge x y else s.drawSmall x y n).setStop f :=
  ite_eq_of_branches (State.setStop · f) rfl rfl

theorem releasePoll_setStop (k : Fin 16) :
    (s.setStop f).releasePoll k = (s.releasePoll k).setStop f :=
  ite_eq_of_branches (State.setStop · f) rfl rfl

theorem ifExt_setStop {i : Instr} {u u' : State} (hu : u' = u.setStop f) :
    (s.setStop f).ifExt i u' = onNext (State.setStop · f) (s.ifExt i u) :=
  ite_eq_of_branches (onNext (State.setStop · f)) (congrArg _ hu) rfl

/-- FX75 and FX85: their effect commutes, and so does the decode error (R79, R80). -/
theorem ifLowX_setStop {i : Instr} {x : Reg} {op : Word} {u u' : State} (hu : u' = u.setStop f) :
    (if x.val ≤ 7 then (s.setStop f).ifExt i u' else .next ((s.setStop f).raiseDecodeError op)) =
      onNext (State.setStop · f)
        (if x.val ≤ 7 then s.ifExt i u else .next (s.raiseDecodeError op)) :=
  ite_eq_of_branches (onNext (State.setStop · f)) (ifExt_setStop s f hu) rfl

theorem writeIndexFlag_setStop (o : Bool) :
    (s.setStop f).writeIndexFlag o = (s.writeIndexFlag o).setStop f := by
  simp only [State.writeIndexFlag, setStop_cfg]
  split
  · rfl
  · split
    · rfl
    · rfl

theorem awaitKey_setStop (x : Reg) (k : Option (Fin 16)) :
    (s.setStop f).awaitKey x k = (s.awaitKey x k).setStop f := by
  cases k with
  | none => rfl
  | some k => rfl

theorem execRet_setStop : execRet (s.setStop f) = onNext (State.setStop · f) (execRet s) := by
  simp only [execRet, setStop_stk]
  split
  · rfl
  · rfl

/-! ### Counted loops -/

/-- A counted loop commutes with the replacement if its body does. -/
theorem loop_setStop {loop : State → Nat → State} (body : State → Nat → State → State)
    (hzero : ∀ s, loop s 0 = s) (hsucc : ∀ s k, loop s (k + 1) = body s k (loop s k))
    (hbody : ∀ k u, body (s.setStop f) k (u.setStop f) = (body s k u).setStop f) (n : Nat) :
    loop (s.setStop f) n = (loop s n).setStop f := by
  induction n with
  | zero => rw [hzero, hzero]
  | succ k ih => rw [hsucc, hsucc, ih, hbody]

theorem spill_setStop (n : Nat) : (s.setStop f).spill n = (s.spill n).setStop f :=
  loop_setStop s f (fun s k u => u.memWrite (s.ea k) (s.readV (loopReg k))) (fun _ => rfl)
    (fun _ _ => rfl) (fun _ _ => rfl) n

theorem fill_setStop (n : Nat) : (s.setStop f).fill n = (s.fill n).setStop f :=
  loop_setStop s f (fun s k u => u.writeV (loopReg k) (s.memRead (s.ea k))) (fun _ => rfl)
    (fun _ _ => rfl) (fun _ _ => rfl) n

theorem spillRpl_setStop (n : Nat) : (s.setStop f).spillRpl n = (s.spillRpl n).setStop f :=
  loop_setStop s f (fun s k u => u.writeRpl (loopRpl k) (s.readV (loopReg k))) (fun _ => rfl)
    (fun _ _ => rfl) (fun _ _ => rfl) n

theorem fillRpl_setStop (n : Nat) : (s.setStop f).fillRpl n = (s.fillRpl n).setStop f :=
  loop_setStop s f (fun s k u => u.writeV (loopReg k) (s.readRpl (loopRpl k))) (fun _ => rfl)
    (fun _ _ => rfl) (fun _ _ => rfl) n

theorem memWriteAll_setStop (a : Nat) (ws : List Byte) :
    (s.setStop f).memWriteAll a ws = (s.memWriteAll a ws).setStop f := by
  induction ws generalizing s a with
  | nil => rfl
  | cons w ws ih => exact ih (s.memWrite a w) (a + 1)

/-! ### Instructions and steps -/

/-- No instruction reads or writes the feed of STOP. -/
theorem exec_setStop (i : Instr) :
    exec i (s.setStop f) = onNext (State.setStop · f) (exec i s) := by
  cases i with
  -- These are made of record updates alone.
  | cls | jp | call | jpo | ldImm | addImm | ldReg | addReg | sub | shr | subn | shl | rnd | getdt
  | setdt | setst | ldIdx | font => rfl
  | ret => exact execRet_setStop s f
  | scd | scr | scl | exit | low | high | fonthi => exact ifExt_setStop s f rfl
  | seImm | sneImm | seReg | sneReg => exact congrArg _ (skipIf_setStop s f _)
  | skp | sknp => exact congrArg _ (skipIf_setStop s.sampledKeys f _)
  | orReg | andReg | xorReg => exact congrArg _ (writeLogic_setStop s f _ _)
  | drw | drw16 => exact congrArg _ (draw_setStop s f _ _ _ _)
  | wkey x =>
    exact congrArg (fun t => Host.Outcome.next t.yieldStep) (awaitKey_setStop s.sampledKeys f x _)
  | addIdx x => exact congrArg _ (writeIndexFlag_setStop (s.setI _) f _)
  | bcd x => exact congrArg _ (memWriteAll_setStop s f _ _)
  | stm x => simp only [exec, execStm, spill_setStop, advanceIndex_setStop, onNext_next]
  | ldm x => simp only [exec, execLdm, fill_setStop, advanceIndex_setStop, onNext_next]
  | stf x => exact ifLowX_setStop s f (spillRpl_setStop s f _)
  | ldf x => exact ifLowX_setStop s f (fillRpl_setStop s f _)

theorem coreStep_setStop :
    coreStep (s.setStop f) = onNext (State.setStop · f) (coreStep s) := by
  rcases coreStep_cases s with ⟨k, hw, hc⟩ | ⟨hw, i, hd, hc⟩ | ⟨hw, e, hd, hc⟩
  · rw [hc, coreStep_of_release (s := s.setStop f) hw, releasePoll_setStop]
    rfl
  · rw [hc, coreStep_of_decode (s := s.setStop f) hw hd]
    exact exec_setStop s.advancePc f i
  · rw [hc, coreStep_of_error (s := s.setStop f) hw hd]
    rfl

theorem finishStep_setStop : (s.setStop f).finishStep = s.finishStep.setStop f := by
  by_cases hr : s.run = .running
  · rw [finishStep_of_running hr, finishStep_of_running (s := s.setStop f) hr]
    rfl
  · rw [finishStep_of_not_running hr, finishStep_of_not_running (s := s.setStop f) hr]

/-- Within a tick STOP is not looked at (R123). -/
theorem stopsNow_within_tick {s : State} (h : s.burst ≠ 0) : s.stopsNow = false := by
  simp [State.stopsNow, State.atBoundary, h]

theorem step_within_tick {s : State} (hr : s.run = .running) (h : s.burst ≠ 0) :
    step s = onNext State.finishStep (coreStep (s.setYielded false)) := by
  rw [step_of_goes_on hr (stopsNow_within_tick h), enterStep_within_tick h]

/-- At a boundary with STOP asserted the step is the halt (R123). -/
theorem step_of_stop {s : State} (hr : s.run = .running) (hb : s.burst = 0)
    (hstop : s.stopLevel = true) : step s = .next s.sampledStop.haltStopped := by
  have hnow : s.stopsNow = true := by simp [State.stopsNow, State.atBoundary, hb, hstop]
  simp only [step, hr, hnow, if_true]

end

end Sys2Proof.Machine
end

section
/-! Settled obligations of 60_exceptions.md. -/

namespace Sys2Proof.Machine

/-- Settles O14: by induction on the budget left; a step that does not end its tick counts itself, so the
budget left goes down. -/
theorem everyTickEndsWithinItsBudget : Obligations.EveryTickEndsWithinItsBudget :=
  fun _ hrun hburst => tick_over_within _ hrun hburst (by omega)

/-- Settles O8: a halt at the boundary is the stop; any other is recorded by Step(), since the bookkeeping
of the burst leaves RUN alone. -/
theorem everyHaltHasItsCause : Obligations.EveryHaltHasItsCause := by
  intro s t c op pc hr h ht
  rcases step_cases hr with ⟨hstop, hstep⟩ | ⟨hgo, u, hu, hstep⟩
  · cases hstep.symm.trans h
    cases ht
    exact .inl ⟨rfl, hstop, rfl, rfl⟩
  · cases hstep.symm.trans h
    rw [finishStep_run] at ht
    have hcause := coreStep_halts ((enterStep_run s).trans hr) hu ht
    simp only [enterStep_wait, enterStep_fetchWord, enterStep_pc, enterStep_cfg, enterStep_stk]
      at hcause
    exact .inr ⟨hgo, hcause⟩

/-- Settles O6: Step() advances PC and records the halt, and a halted step has no bookkeeping. -/
theorem illegalWordHaltsPrecisely : Obligations.IllegalWordHaltsPrecisely := by
  intro s e hr hw hgo hd
  have hcore := coreStep_of_error (s := s.enterStep) (e := e) (by rwa [enterStep_wait])
    (by rwa [enterStep_cfg, enterStep_fetchWord])
  rw [step_of_goes_on hr hgo, hcore, onNext_next, finishStep_of_not_running (by nofun),
    enterStep_fetchWord]
  have hpc : s.enterStep.advancePc.pc = s.pc + 2 := by
    rw [State.advancePc, setPc_pc, enterStep_pc]
  exact ⟨_, rfl, hpc, congrArg (RunState.halted .decode s.fetchWord) hpc,
    (keeps_setPc _ _).append (keeps_raiseDecodeError _ _)⟩

/-- Settles O9: at the boundary the stop is the whole step; within a tick the entry, Step() and the
bookkeeping each commute with the replacement of the feed. -/
theorem stopIsSeenAtBoundariesOnly : Obligations.StopIsSeenAtBoundariesOnly := by
  refine ⟨fun s hr hb hstop => ?_, fun s f hb => ?_⟩
  · exact ⟨_, step_of_stop hr hb hstop, rfl, rfl,
      ((keeps_setStop s _).append (keeps_setRun _ _)).mono (by decide)⟩
  · cases hr : s.run with
    | halted c op pc => rw [step_of_halted hr, step_of_halted (s := s.setStop f) hr]; rfl
    | running =>
      obtain ⟨u, hu⟩ := coreStep_next (s.setYielded false)
      have hu' : coreStep ((s.setStop f).setYielded false) = .next (u.setStop f) :=
        (coreStep_setStop (s.setYielded false) f).trans (by rw [hu, onNext_next])
      rw [step_within_tick hr hb, step_within_tick (s := s.setStop f) hr hb, hu, hu', onNext_next,
        finishStep_setStop, onNext_next, onNext_next]

/-- Settles O12: a poll yields by the level of its key; with no yield pending an instruction yields exactly
if its row of `mayChange` lists the signal; a decode error leaves it alone. -/
theorem yieldsInExactlyThreeCases : Obligations.YieldsInExactlyThreeCases := by
  intro s t hs h
  rcases coreStep_cases s with ⟨k, hw, hc⟩ | ⟨hw, i, hd, hc⟩ | ⟨hw, e, hd, hc⟩
  · cases hc.symm.trans h
    simp [releasePoll_yielded_iff hs, hw]
  · rw [exec_yielded_iff (s := s.advancePc) hs (hc.symm.trans h), yielded_mem_mayChange]
    simp [hw, hd]
  · cases hc.symm.trans h
    have hkept : (s.advancePc.raiseDecodeError s.fetchWord).yielded = false := hs
    simp [hkept, hw, hd]

/-- Settles O13: Step() leaves both counts alone, and the bookkeeping of the burst writes nothing else. -/
theorem burstEndsOnYieldOrBudget : Obligations.BurstEndsOnYieldOrBudget := by
  intro s u hr hgo hu
  obtain ⟨hcfg, hburst, hpresents⟩ := counts_of_coreStep_enterStep hu
  rw [← hcfg, ← hburst, ← hpresents, ← endsBurst_iff]
  refine ⟨u.finishStep, by rw [step_of_goes_on hr hgo, hu, onNext_next], keeps_finishStep u,
    fun hrun hend => ?_, fun hrun hend => ?_, fun hrun => ?_⟩
  · rw [finishStep_of_ends hrun hend]
    exact ⟨rfl, rfl⟩
  · rw [finishStep_of_goes_on hrun (Bool.eq_false_of_not_eq_true hend)]
    exact ⟨rfl, rfl⟩
  · rw [finishStep_of_not_running hrun]

/-- Settles O7: a halted machine faults with its report, and each way of a running one answers a next
state. -/
theorem onlyAHaltedMachineStops : Obligations.OnlyAHaltedMachineStops := by
  refine ⟨fun _ _ _ _ => step_of_halted, fun s hr => ?_⟩
  rcases step_cases hr with ⟨-, hstep⟩ | ⟨-, u, -, hstep⟩
  · exact ⟨_, hstep⟩
  · exact ⟨_, hstep⟩

/-- Settles O10: at a boundary the entry samples STOP and ticks the timers, and otherwise it only clears the
yield signal. -/
theorem timersTickOncePerTick : Obligations.TimersTickOncePerTick := by
  refine fun s => ⟨fun hb => ?_, fun hb => ?_⟩
  · have hdt := enterStep_dt s
    have hst := enterStep_st s
    rw [if_pos hb] at hdt hst
    refine ⟨hdt, hst, ?_, (keeps_enterStep s).mono (by decide)⟩
    rw [enterStep_at_boundary hb]
    rfl
  · rw [enterStep_within_tick hb]
    exact keeps_setYielded s false

end Sys2Proof.Machine
end

section
/-! The reset image (70_reset_and_hazards.md R128, R129; 20_memory.md R33): the byte of each region of it,
and that memory after reset reads as the image does. -/

namespace Sys2Proof.Machine

section
variable (c : Config)

/-- Reset lists no cell, so each of the 4096 cells reads as the image. -/
theorem memRead_resetWith {a : Nat} (ha : a < memSize) :
    (State.resetWith c).memRead a = resetByte c a :=
  congrArg (resetByte c) (Nat.mod_eq_of_lt ha)

theorem resetByte_fontLo (j : Fin 80) : resetByte c (fontLoBase + j.val) = c.fontLo[j.val] := by
  have hin : fontLoBase ≤ fontLoBase + j.val ∧ fontLoBase + j.val < fontLoBase + 80 := by omega
  rw [resetByte, if_pos hin, Nat.add_sub_cancel_left, Vector.getElem?_eq_getElem j.isLt]
  rfl

/-- Beyond the low-resolution font the image is the high-resolution font or zero. -/
theorem resetByte_beyond_fontLo {a : Nat} (ha : a < fontLoBase ∨ fontHiBase ≤ a) :
    resetByte c a = if c.extOps ∧ fontHiBase ≤ a ∧ a < fontHiBase + 160
      then (c.fontHi[a - fontHiBase]?).getD 0 else 0 := by
  have hout : ¬ (fontLoBase ≤ a ∧ a < fontLoBase + 80) := by
    simp only [fontLoBase, fontHiBase] at ha ⊢
    omega
  rw [resetByte, if_neg hout]

/-- Only EXT holds a high-resolution font (decision D11). -/
theorem resetByte_fontHi (j : Fin 160) :
    resetByte c (fontHiBase + j.val) = if c.variant = .ext then c.fontHi[j.val] else 0 := by
  rw [resetByte_beyond_fontLo c (.inr (Nat.le_add_right _ _))]
  cases hv : c.variant with
  | base => simp [extOps_of_base hv]
  | ext => simp [extOps_of_ext hv]

theorem resetByte_outside_fonts {a : Nat} (ha : a < fontLoBase ∨ fontHiBase + 160 ≤ a) :
    resetByte c a = 0 := by
  have hout : ¬ (c.extOps = true ∧ fontHiBase ≤ a ∧ a < fontHiBase + 160) := by
    simp only [fontLoBase, fontHiBase] at ha ⊢
    omega
  rw [resetByte_beyond_fontLo c (ha.imp_right Nat.le_of_add_right_le), if_neg hout]

theorem readV_resetWith (r : Reg) : (State.resetWith c).readV r = 0 :=
  Vector.getElem_replicate r.isLt

theorem readRpl_resetWith (k : Fin 8) : (State.resetWith c).readRpl k = 0 :=
  Vector.getElem_replicate k.isLt

end

end Sys2Proof.Machine
end

section
/-! Settled obligations of 70_reset_and_hazards.md. -/

namespace Sys2Proof.Machine

/-- Settles O22: the ROM that fits lies within the 4096 cells, so it reads back byte by byte and no cell
before or behind it is stored to. -/
theorem loadCopiesTheRom : Obligations.LoadCopiesTheRom := by
  refine fun s rom => ⟨fun hfits => ⟨s.memWriteAll loadBase rom, if_pos hfits,
    keeps_memWriteAll s loadBase rom, fun j hj => ?_, fun a ha hout => ?_⟩,
    fun hlong => if_neg (Nat.not_le.2 hlong)⟩
  · have hlen : rom.length ≤ memSize := hfits.trans (by decide)
    rw [List.getD_eq_getElem _ _ hj]
    exact memRead_memWriteAll_cell s loadBase hlen (List.getElem?_eq_getElem hj)
  · have hend : loadBase + rom.length ≤ memSize := Nat.add_le_add_left hfits loadBase
    have hnot : ¬ (loadBase ≤ a ∧ a < loadBase + rom.length) := fun ⟨hge, hlt⟩ =>
      hout.elim (Nat.not_lt.2 hge) (Nat.not_le.2 hlt)
    rw [memRead_memWriteAll s loadBase rom a ha hend, if_neg hnot]

/-- Settles O21: memory is the reset image, read region by region, and every other piece of state is the
constant that the reset gives it. -/
theorem resetStateIsAsTheRulesSay : Obligations.ResetStateIsAsTheRulesSay := by
  refine fun c => ⟨rfl, readV_resetWith c, rfl, rfl, rfl, rfl, rfl, readRpl_resetWith c,
    pixel_blankScreen, rfl, rfl, rfl, rfl, fun j => ?_, fun j => ?_, fun a ha hout => ?_⟩
  · exact (memRead_resetWith c (by simp only [memSize]; omega)).trans (resetByte_fontLo c j)
  · exact (memRead_resetWith c (by simp only [memSize]; omega)).trans (resetByte_fontHi c j)
  · exact (memRead_resetWith c ha).trans (resetByte_outside_fonts c hout)

end Sys2Proof.Machine
end
